-- ==== Sys2Proof/Word.lean ====
section
/-! DEFINITION. The widths of the block: bytes of the data RAM, 32-bit registers, the 64-bit time input (00_scope.md R9). -/

namespace Sys2Proof

/-- A byte of the data RAM, of a key slot or of a byte sequence. -/
abbrev Byte := BitVec 8

/-- A register, a command word, a 32-bit integer of an algorithm. -/
abbrev Word := BitVec 32

/-- The 64-bit time input `L.TIME`. -/
abbrev DWord := BitVec 64

end Sys2Proof
end

