-- ==== Sys2Proof/Machine/Bytes.lean ====
section
/-! DEFINITION. Byte sequences and the integers made of them (00_scope.md R12, 20_memory.md R80, R81). -/

namespace Sys2Proof

/-- The integer of a byte sequence, least significant byte first. -/
def leValue : List Byte → Nat
  | [] => 0
  | b :: bs => b.toNat + 256 * leValue bs

/-- The `n` low bytes of an integer, least significant first. -/
def leBytes : Nat → Nat → List Byte
  | 0, _ => []
  | n + 1, v => BitVec.ofNat 8 v :: leBytes n (v / 256)

/-- `LE32(b)` (R12). -/
def le32 (b : List Byte) : Word := BitVec.ofNat 32 (leValue (b.take 4))

/-- `le32bytes(v)` (R12). -/
def le32bytes (v : Word) : List Byte := leBytes 4 v.toNat

/-- `BE32(b)` (R12). -/
def be32 (b : List Byte) : Word := BitVec.ofNat 32 (leValue (b.take 4).reverse)

/-- `be32bytes(v)` (R12). -/
def be32bytes (v : Word) : List Byte := (leBytes 4 v.toNat).reverse

/-- `be64bytes(v)` (R12). -/
def be64bytes (v : Nat) : List Byte := (leBytes 8 v).reverse

/-- `zeros(n)` (R12). -/
def zeros (n : Nat) : List Byte := List.replicate n 0

/-- `xor(a, b)` of sequences of equal length (R12). -/
def xorBytes (a b : List Byte) : List Byte := List.zipWith (· ^^^ ·) a b

/-- The first `n` pieces of `k` bytes of a sequence, in order. -/
def pieces (k : Nat) : Nat → List Byte → List (List Byte)
  | 0, _ => []
  | n + 1, b => b.take k :: pieces k n (b.drop k)

/-- A sequence cut into its whole pieces of `k` bytes. -/
def chunks (k : Nat) (b : List Byte) : List (List Byte) := pieces k (b.length / k) b

end Sys2Proof
end

