-- ==== Sys2Proof/Config.lean ====
section
/-! DEFINITION. What an implementation of the block fixes: the parameters of 00_scope.md R8 and 20_memory.md R83.
They are data of State that no step changes, so a statement over all states is a statement over all parameters (log 2). -/

namespace Sys2Proof

/-- Which function `TsText` (00_scope.md R8, 44_totp.md R262) a block was built with: the reference instance, or one of
the platform's own, about which nothing is known. -/
inductive TsFormat where
  | decimal
  | platform (which : Nat)
  deriving DecidableEq, Repr

/-- The timestamp text of the platform's own formats: OPEN in the spec (44_totp.md R262, 92_eei_decisions.md D14), so an
uninterpreted constant (log 3). -/
opaque Config.platformText : Nat → Nat → List Byte

/-- The implementation parameters of 00_scope.md R8, and `WINDOW_BASE` of 20_memory.md R83. -/
structure Params where
  /-- `PBKDF_ITER`. -/
  pbkdfIter : Nat
  /-- `NUM_KEY_SLOTS`. -/
  numSlots : Nat
  /-- log2 of `BUF_BYTES`. -/
  bufLog2 : Nat
  /-- `TsText`. -/
  ts : TsFormat
  /-- `WINDOW_BASE`. -/
  windowBase : Nat
  deriving DecidableEq, Repr

/-- `BUF_BYTES`: the size of the data RAM in bytes. -/
def Params.bufBytes (p : Params) : Nat := 2 ^ p.bufLog2

/-- The window's size, 2 MiB (20_memory.md R83). -/
abbrev Config.windowBytes : Nat := 0x200000

/-- The legal values of 00_scope.md R8; `WINDOW_BASE` is a multiple of the window's size (20_memory.md R83). -/
abbrev Params.legal (p : Params) : Prop :=
  (p.pbkdfIter = 10 ∨ p.pbkdfIter = 20) ∧ (1 ≤ p.numSlots ∧ p.numSlots ≤ 16) ∧ (12 ≤ p.bufLog2 ∧ p.bufLog2 ≤ 20) ∧
    p.windowBase % Config.windowBytes = 0

/-- The reference values of 00_scope.md R8 (DESIGN CHOICE for State.reset, log 2; `WINDOW_BASE` 0, log 4). -/
def Params.reference : Params :=
  { pbkdfIter := 10, numSlots := 4, bufLog2 := 16, ts := .decimal, windowBase := 0 }

end Sys2Proof
end

