-- ==== Sys2Proof/Syntax.lean ====
section
/-! DEFINITION. The block's commands, one constructor per row of spec/opcode_table.json (30_encoding.md R113). -/

namespace Sys2Proof

/-- The value of the 4-bit field `SLOT` (30_encoding.md R110): a key-slot index. -/
abbrev SlotIx := Fin 16

/-- The legal values of the field `KIND` on key construction (30_encoding.md R110): 1 RC4, 2 XTEA. -/
inductive KeyKind where
  | rc4
  | xtea
  deriving DecidableEq, Repr

/-- A command with its fields (30_encoding.md R113). -/
inductive Instr where
  | nop
  | derive
  | deriveKey (slot : SlotIx) (kind : KeyKind)
  | loadKey (slot : SlotIx) (kind : KeyKind)
  | clearKey (slot : SlotIx)
  | rc4 (slot : SlotIx)
  | xteaEnc (slot : SlotIx)
  | xteaDec (slot : SlotIx)
  | xteaEcbEnc (slot : SlotIx)
  | xteaEcbDec (slot : SlotIx)
  | totpGen
  | totpValidate (allowLast : Bool)
  deriving DecidableEq, Repr

end Sys2Proof
end

