-- ==== Sys2Proof/WellFormed.lean ====
section
/-! DEFINITION. Which commands a block with a given number of key slots has: a slot-naming command needs
`SLOT < NUM_KEY_SLOTS` (30_encoding.md R114). Every other field value that a constructor can hold is legal. -/

namespace Sys2Proof

/-- The key slot a command names, if it names one (30_encoding.md R113, column SLOT). -/
def Instr.slot? : Instr → Option SlotIx
  | .nop => none
  | .derive => none
  | .deriveKey slot _ => some slot
  | .loadKey slot _ => some slot
  | .clearKey slot => some slot
  | .rc4 slot => some slot
  | .xteaEnc slot => some slot
  | .xteaDec slot => some slot
  | .xteaEcbEnc slot => some slot
  | .xteaEcbDec slot => some slot
  | .totpGen => none
  | .totpValidate _ => none

/-- The further condition of 30_encoding.md R114 for a block with `numSlots` key slots. -/
def Instr.wf (numSlots : Nat) (i : Instr) : Bool :=
  match i.slot? with
  | none => true
  | some slot => decide (slot.val < numSlots)

end Sys2Proof
end

