-- ==== Sys2Proof/Decode.lean ====
section
/-! DEFINITION. From a 32-bit command word to a command or the reason it is illegal (30_encoding.md R110 to R116), and
back. A word is taken whole from one register write, so there is no byte order in it (R99, R117). -/

namespace Sys2Proof

/-- Why a word is illegal (30_encoding.md R116). The block reports all of them alike, as `ILLEGAL_COMMAND`. -/
inductive Illegal where
  /-- a bit of `RSV` is set -/
  | reservedBits
  /-- a reserved `OP` value -/
  | reservedOp
  /-- a field the operation does not use is nonzero -/
  | unusedField
  /-- `KIND` of 0 or 3 on `DERIVE_KEY` or `LOAD_KEY` -/
  | badKind
  /-- `SLOT >= NUM_KEY_SLOTS` on a slot-naming command -/
  | slotOutOfRange
  deriving DecidableEq, Repr

/-- `OP`, bits [7:0] (R110). -/
def opField (w : Word) : Nat := w.toNat % 256

/-- `SLOT`, bits [11:8] (R110). -/
def slotField (w : Word) : SlotIx := ⟨w.toNat / 256 % 16, Nat.mod_lt _ (by decide)⟩

/-- `KIND`, bits [13:12] (R110). -/
def kindField (w : Word) : Nat := w.toNat / 4096 % 4

/-- `A`, bit 14 (R110). -/
def allowLastField (w : Word) : Bool := w.toNat / 16384 % 2 == 1

/-- `RSV`, bits [31:15] (R110). -/
def rsvField (w : Word) : Nat := w.toNat / 32768

/-- The key kind a value of the field `KIND` stands for (R110). -/
def kindOfField : Nat → Option KeyKind
  | 1 => some .rc4
  | 2 => some .xtea
  | _ => none

/-- The value of the field `KIND` (R110). -/
def KeyKind.field : KeyKind → Nat
  | .rc4 => 1
  | .xtea => 2

/-- The operations without a field: `SLOT`, `KIND` and `A` must be 0 (R115). -/
def decodeBare (w : Word) (i : Instr) : Except Illegal Instr :=
  if (slotField w).val ≠ 0 ∨ kindField w ≠ 0 ∨ allowLastField w = true then .error .unusedField else .ok i

/-- The operations that name a slot: `KIND` and `A` must be 0, `SLOT` below `NUM_KEY_SLOTS` (R115). -/
def decodeSlot (numSlots : Nat) (w : Word) (mk : SlotIx → Instr) : Except Illegal Instr :=
  if allowLastField w = true ∨ kindField w ≠ 0 then .error .unusedField
  else if (slotField w).val < numSlots then .ok (mk (slotField w))
  else .error .slotOutOfRange

/-- The key-constructing operations: `A` must be 0, `KIND` 1 or 2, `SLOT` below `NUM_KEY_SLOTS` (R115). -/
def decodeKeyed (numSlots : Nat) (w : Word) (mk : SlotIx → KeyKind → Instr) : Except Illegal Instr :=
  if allowLastField w = true then .error .unusedField
  else match kindOfField (kindField w) with
    | none => .error .badKind
    | some kind =>
      if (slotField w).val < numSlots then .ok (mk (slotField w) kind) else .error .slotOutOfRange

/-- `TOTP_VALIDATE`: `SLOT` and `KIND` must be 0 (R115). -/
def decodeFlag (w : Word) (mk : Bool → Instr) : Except Illegal Instr :=
  if (slotField w).val ≠ 0 ∨ kindField w ≠ 0 then .error .unusedField else .ok (mk (allowLastField w))

/-- `Decode(w)` of 30_encoding.md R115, for a block with `numSlots` key slots. -/
def decode (numSlots : Nat) (w : Word) : Except Illegal Instr :=
  if rsvField w ≠ 0 then .error .reservedBits
  else match opField w with
    | 0x00 => decodeBare w .nop
    | 0x01 => decodeBare w .derive
    | 0x02 => decodeKeyed numSlots w .deriveKey
    | 0x03 => decodeKeyed numSlots w .loadKey
    | 0x04 => decodeSlot numSlots w .clearKey
    | 0x10 => decodeSlot numSlots w .rc4
    | 0x20 => decodeSlot numSlots w .xteaEnc
    | 0x21 => decodeSlot numSlots w .xteaDec
    | 0x22 => decodeSlot numSlots w .xteaEcbEnc
    | 0x23 => decodeSlot numSlots w .xteaEcbDec
    | 0x30 => decodeBare w .totpGen
    | 0x31 => decodeFlag w .totpValidate
    | _ => .error .reservedOp

/-- The word with the given fields, `RSV` zero (30_encoding.md R110, R111). -/
def packWord (op slot kind : Nat) (allowLast : Bool) : Word :=
  BitVec.ofNat 32 (op + 256 * slot + 4096 * kind + 16384 * allowLast.toNat)

/-- The word of a command (30_encoding.md R113). -/
def encode : Instr → Word
  | .nop => packWord 0x00 0 0 false
  | .derive => packWord 0x01 0 0 false
  | .deriveKey slot kind => packWord 0x02 slot.val kind.field false
  | .loadKey slot kind => packWord 0x03 slot.val kind.field false
  | .clearKey slot => packWord 0x04 slot.val 0 false
  | .rc4 slot => packWord 0x10 slot.val 0 false
  | .xteaEnc slot => packWord 0x20 slot.val 0 false
  | .xteaDec slot => packWord 0x21 slot.val 0 false
  | .xteaEcbEnc slot => packWord 0x22 slot.val 0 false
  | .xteaEcbDec slot => packWord 0x23 slot.val 0 false
  | .totpGen => packWord 0x30 0 0 false
  | .totpValidate allowLast => packWord 0x31 0 0 allowLast

/-- A row of the match-and-mask table of 30_encoding.md R114. -/
structure MatchRow where
  mnemonic : String
  pattern : Word
  mask : Word
  /-- the further condition `KIND` in {1, 2} -/
  needsKind : Bool
  /-- the further condition `SLOT < NUM_KEY_SLOTS` -/
  needsSlot : Bool
  deriving DecidableEq, Repr

/-- The table of 30_encoding.md R114. -/
def matchTable : List MatchRow :=
  [ ⟨"NOP", 0x00000000, 0xFFFFFFFF, false, false⟩,
    ⟨"DERIVE", 0x00000001, 0xFFFFFFFF, false, false⟩,
    ⟨"DERIVE_KEY", 0x00000002, 0xFFFFC0FF, true, true⟩,
    ⟨"LOAD_KEY", 0x00000003, 0xFFFFC0FF, true, true⟩,
    ⟨"CLEAR_KEY", 0x00000004, 0xFFFFF0FF, false, true⟩,
    ⟨"RC4", 0x00000010, 0xFFFFF0FF, false, true⟩,
    ⟨"XTEA_ENC", 0x00000020, 0xFFFFF0FF, false, true⟩,
    ⟨"XTEA_DEC", 0x00000021, 0xFFFFF0FF, false, true⟩,
    ⟨"XTEA_ECB_ENC", 0x00000022, 0xFFFFF0FF, false, true⟩,
    ⟨"XTEA_ECB_DEC", 0x00000023, 0xFFFFF0FF, false, true⟩,
    ⟨"TOTP_GEN", 0x00000030, 0xFFFFFFFF, false, false⟩,
    ⟨"TOTP_VALIDATE", 0x00000031, 0xFFFFBFFF, false, false⟩ ]

/-- "A word `w` is the command of a row iff `w & mask = match` and the further condition holds" (30_encoding.md R114). -/
def MatchRow.holds (numSlots : Nat) (w : Word) (r : MatchRow) : Bool :=
  w &&& r.mask == r.pattern && (!r.needsKind || (kindOfField (kindField w)).isSome)
    && (!r.needsSlot || decide ((slotField w).val < numSlots))

/-- The mnemonic of a command in spec/opcode_table.json. -/
def Instr.mnemonic : Instr → String
  | .nop => "NOP"
  | .derive => "DERIVE"
  | .deriveKey _ _ => "DERIVE_KEY"
  | .loadKey _ _ => "LOAD_KEY"
  | .clearKey _ => "CLEAR_KEY"
  | .rc4 _ => "RC4"
  | .xteaEnc _ => "XTEA_ENC"
  | .xteaDec _ => "XTEA_DEC"
  | .xteaEcbEnc _ => "XTEA_ECB_ENC"
  | .xteaEcbDec _ => "XTEA_ECB_DEC"
  | .totpGen => "TOTP_GEN"
  | .totpValidate _ => "TOTP_VALIDATE"

/-- The command that the block of State.reset reads from an instruction of `nbits` bits whose bits are `w`. A command is
one 32-bit word (30_encoding.md R117): bits above `nbits` are 0, and a longer one is none. -/
def decodeTableWord (nbits w : Nat) : Option Instr :=
  if nbits ≤ 32 then (decode Params.reference.numSlots (BitVec.ofNat 32 (w % 2 ^ nbits))).toOption else none

end Sys2Proof
end

