-- ==== Sys2Proof/Machine/State.lean ====
section
/-! DEFINITION. The block's state (10_state.md), the inputs that reach it, the reasons a run stops, and reset. -/

namespace Sys2Proof.Machine

/-- `KS[s].kind` (10_state.md R48). Its code 3 is reserved and no slot ever holds it. -/
inductive SlotKind where
  | empty
  | rc4
  | xtea
  deriving DecidableEq, Repr

/-- A key slot (10_state.md R48): its kind, and 256 bytes of key. -/
structure KeySlot where
  kind : SlotKind
  key : List Byte
  deriving DecidableEq, Repr

/-- The operand registers (10_state.md R41). -/
structure OperandRegs where
  srcAddr : Word
  srcLen : Word
  dstAddr : Word
  outLen : Word
  timeLo : Word
  timeHi : Word
  totpCand : Word
  deriving DecidableEq, Repr

/-- The latch `L` (10_state.md R46). -/
structure Latch where
  cmd : Word
  srcAddr : Word
  srcLen : Word
  dstAddr : Word
  outLen : Word
  time : DWord
  totpCand : Word
  deriving DecidableEq, Repr

/-- The stored bits of `STATUS` (10_state.md R39); the others are RAZ/WI. -/
structure Status where
  busy : Bool
  done : Bool
  err : Bool
  overrun : Bool
  deriving DecidableEq, Repr

/-- The stored bits of `CTRL` (10_state.md R38); the others are RAZ/WI. -/
structure Ctrl where
  doneIe : Bool
  errIe : Bool
  deriving DecidableEq, Repr

/-- The TOTP result registers (10_state.md R43); `matched` is `TOTP_STATUS.MATCH`. -/
structure TotpRegs where
  code : Word
  last : Word
  secs : Word
  present : Bool
  matched : Bool
  deriving DecidableEq, Repr

/-- The data RAM (10_state.md R51, R54): the written bytes, at strictly rising addresses. An unlisted address is a byte
that nothing has written. -/
abbrev Memory := List Host.Cell

/-- The width of a host access (20_memory.md R88). -/
inductive Width where
  | byte
  | half
  | word
  deriving DecidableEq, Repr

/-- A host access, at an address of the host's address space. -/
inductive HostAccess where
  | read (addr : Nat) (width : Width)
  | write (addr : Nat) (width : Width) (value : Word)
  deriving DecidableEq, Repr

/-- What happens at the block in one step (10_state.md R30, 70_reset_and_hazards.md R342, log 1). -/
inductive Event where
  /-- the engine takes its turn -/
  | engine
  /-- a host access takes effect -/
  | host (access : HostAccess)
  /-- the engine takes its turn and a host write of `value` to `STATUS` takes effect in the same step (R304) -/
  | engineAndStatusWrite (value : Word)
  /-- the platform asserts the reset input -/
  | reset
  /-- power is lost and comes back, with its reset (60_exceptions.md R317) -/
  | powerOn
  deriving DecidableEq, Repr

/-- The block (10_state.md), its parameters, and the model's own `inputs` and `reply`. -/
structure State where
  /-- the implementation parameters (00_scope.md R8); no step changes them -/
  params : Params
  operands : OperandRegs
  /-- the register `CMD` -/
  cmd : Word
  latch : Latch
  status : Status
  ctrl : Ctrl
  /-- `ERRCODE.CODE` -/
  errcode : BitVec 4
  resultLen : Word
  totp : TotpRegs
  /-- the key slots `KS[0]`, `KS[1]`, ... -/
  slots : List KeySlot
  ram : Memory
  /-- MODEL ONLY (log 1): what is still to happen at the block, first event first -/
  inputs : List Event
  /-- MODEL ONLY (log 6): what the block returned to the last host read, zero-extended -/
  reply : Option Word
  deriving DecidableEq, Repr

/-- The errors a command can raise (60_exceptions.md R300). Raising one is no fault: the command completes with it. -/
inductive CmdError where
  | illegalCommand
  | invalidKeyMaterial
  | malformedCiphertext
  | emptyKey
  | range
  | keyNotLoaded
  | noOtp
  deriving DecidableEq, Repr

/-- The model faults of 60_exceptions.md R318, each of which ends the run (log 7). -/
inductive Fault where
  /-- raised by a host access that 20_memory.md R84 does not allow (R85); safe: the model stops where the hardware goes on -/
  | hostBusError
  /-- raised by a host read of, or a command's read of, a byte nothing has written (20_memory.md R93); safe: no value is picked -/
  | uninitRead
  /-- raised by a host access that 70_reset_and_hazards.md R351 or R352 forbids (R354); safe: no outcome of the race is picked -/
  | hostHazard
  deriving DecidableEq, Repr

/-- Why an instruction has no meaning. -/
inductive Refusal where
  /-- raised by an arm of exec whose instruction has no meaning yet (none is left); safe: the model stops -/
  | notModelled (mnemonic : String)
  deriving DecidableEq, Repr

/-- An empty slot (10_state.md R48). -/
def KeySlot.cleared : KeySlot := { kind := .empty, key := zeros 256 }

/-- The values of 70_reset_and_hazards.md R340 for a block with parameters `p`, over the data RAM `ram`, with the
model's own fields given. The latch has no value there: zero is a DESIGN CHOICE (log 5). -/
def State.resetWith (p : Params) (ram : Memory) (inputs : List Event) (reply : Option Word) : State where
  params := p
  operands := { srcAddr := 0, srcLen := 0, dstAddr := 0, outLen := 0, timeLo := 0, timeHi := 0, totpCand := 0 }
  cmd := 0
  latch := { cmd := 0, srcAddr := 0, srcLen := 0, dstAddr := 0, outLen := 0, time := 0, totpCand := 0 }
  status := { busy := false, done := false, err := false, overrun := false }
  ctrl := { doneIe := false, errIe := false }
  errcode := 0
  resultLen := 0
  totp := { code := 0, last := 0, secs := 0, present := false, matched := false }
  slots := List.replicate p.numSlots KeySlot.cleared
  ram := ram
  inputs := inputs
  reply := reply

/-- The block after power-on (70_reset_and_hazards.md R340, R341): every byte of the data RAM unwritten. The parameters
are R8's reference values (log 2); nothing is still to happen (log 1). -/
def State.reset : State := State.resetWith Params.reference [] [] none

end Sys2Proof.Machine
end

