-- ==== Sys2Proof/Machine/Flags.lean ====
section
/-! DEFINITION. The flag registers `STATUS`, `CTRL`, `TOTP_STATUS` and the error code as software sees them, and every rule that sets or
clears one of their bits (10_state.md R33, R38, R39, R43; 60_exceptions.md R300, R310). -/

namespace Sys2Proof.Machine

/-- `STATUS` as a word: BUSY, DONE, ERR, OVERRUN from bit 0, the rest 0 (10_state.md R39). -/
def Status.word (f : Status) : Word :=
  BitVec.ofNat 32 (f.busy.toNat + 2 * f.done.toNat + 4 * f.err.toNat + 8 * f.overrun.toNat)

/-- `CTRL` as a word: bit 0 reads 0, then DONE_IE and ERR_IE, the rest 0 (10_state.md R38). -/
def Ctrl.word (c : Ctrl) : Word := BitVec.ofNat 32 (2 * c.doneIe.toNat + 4 * c.errIe.toNat)

/-- The enables that a write of `v` to `CTRL` leaves (10_state.md R38). -/
def Ctrl.ofWord (v : Word) : Ctrl := { doneIe := v.getLsbD 1, errIe := v.getLsbD 2 }

/-- `TOTP_STATUS` as a word: PRESENT, MATCH, the rest 0 (10_state.md R43). -/
def TotpRegs.statusWord (t : TotpRegs) : Word := BitVec.ofNat 32 (t.present.toNat + 2 * t.matched.toNat)

/-- A host write of `v` to `STATUS`: a 1 clears DONE, ERR or OVERRUN; BUSY is read-only (10_state.md R39). -/
def Status.clearOnes (f : Status) (v : Word) : Status :=
  { busy := f.busy
    done := f.done && !v.getLsbD 1
    err := f.err && !v.getLsbD 2
    overrun := f.overrun && !v.getLsbD 3 }

/-- An accepted `CMD` write sets BUSY and clears DONE (10_state.md R44). -/
def Status.issued (f : Status) : Status := { f with busy := true, done := false }

/-- A dropped `CMD` write sets OVERRUN (10_state.md R44). -/
def Status.dropped (f : Status) : Status := { f with overrun := true }

/-- Completion without error clears BUSY and sets DONE (30_encoding.md R121). -/
def Status.completed (f : Status) : Status := { f with busy := false, done := true }

/-- Completion with an error also sets ERR (30_encoding.md R121). -/
def Status.failed (f : Status) : Status := { f with busy := false, done := true, err := true }

/-- The code of an error in `ERRCODE` (60_exceptions.md R300). -/
def CmdError.code : CmdError → BitVec 4
  | .illegalCommand => 1
  | .invalidKeyMaterial => 2
  | .malformedCiphertext => 3
  | .emptyKey => 4
  | .range => 5
  | .keyNotLoaded => 6
  | .noOtp => 7

/-- The interrupt output `IRQ`, level-sensitive, active high (60_exceptions.md R310). -/
def State.irq (s : State) : Bool := (s.status.done && s.ctrl.doneIe) || (s.status.err && s.ctrl.errIe)

end Sys2Proof.Machine
end

