-- ==== Sys2Proof/Machine/Ops.lean ====
section
/-! DEFINITION. The shared operations: the data RAM, the key slots, issue, and the completion of a command with or without
error (20_memory.md R90 to R93, 30_encoding.md R121, 60_exceptions.md R306). -/

namespace Sys2Proof.Machine

/-- What an unlisted address reads as: no value, so that a read of a byte nothing has written faults (20_memory.md R93, log 11). -/
def Memory.unlisted : Option Byte := none

/-- The byte at an address, or none where nothing has been written (20_memory.md R93). -/
def Memory.read : Memory → Nat → Option Byte
  | [], _ => Memory.unlisted
  | (k, b) :: m, a => if k = a then some b else Memory.read m a

/-- Write one byte. No byte equals what an unlisted address reads as, so a write always lists its address. -/
def Memory.write : Memory → Nat → Byte → Memory
  | [], a, v => [(a, v)]
  | (k, b) :: m, a, v =>
    if a < k then (a, v) :: (k, b) :: m
    else if a = k then (a, v) :: m
    else (k, b) :: Memory.write m a v

/-- The canonical form: addresses strictly rising. -/
abbrev Memory.wf (m : Memory) : Prop := m.Pairwise (fun x y => x.1 < y.1)

/-- Every listed address is below `bound`. -/
abbrev Memory.within (bound : Nat) (m : Memory) : Prop := ∀ c ∈ m, c.1 < bound

/-- `MemRead(a, n)`: none where one of the bytes has not been written (20_memory.md R91, R93). -/
def Memory.readBytes (m : Memory) : Nat → Nat → Option (List Byte)
  | _, 0 => some []
  | a, n + 1 =>
    match m.read a, Memory.readBytes m (a + 1) n with
    | some b, some bs => some (b :: bs)
    | _, _ => none

/-- `MemWrite(a, n, v)` (20_memory.md R91). -/
def Memory.writeBytes (m : Memory) : Nat → List Byte → Memory
  | _, [] => m
  | a, b :: bs => Memory.writeBytes (m.write a b) (a + 1) bs

/-- The bytes at `a` to `a + n - 1` become unwritten (70_reset_and_hazards.md R344). -/
def Memory.forget (m : Memory) (a n : Nat) : Memory := m.filter (fun c => decide (c.1 < a ∨ a + n ≤ c.1))

/-- `KS[s]` (10_state.md R48). A command that names no slot of the block is illegal, so the default is never used. -/
def State.slot (s : State) (i : SlotIx) : KeySlot := s.slots.getD i.val KeySlot.cleared

/-- The writes a command collects before it completes (30_encoding.md R121). -/
structure Writes where
  /-- a `MemWrite`: its address and bytes -/
  ram : Option (Nat × List Byte) := none
  /-- an assignment to a key slot -/
  slot : Option (SlotIx × KeySlot) := none
  /-- assignments to the TOTP result registers -/
  totp : Option TotpRegs := none
  deriving DecidableEq, Repr

/-- What `Execute(c, L)` returns (30_encoding.md R121): the writes and the number of bytes, or an error, or the read of an
unwritten byte (20_memory.md R93). -/
inductive CmdResult where
  | ok (writes : Writes) (n : Nat)
  | error (e : CmdError)
  | uninit
  deriving DecidableEq, Repr

/-- Apply every write of a command, all at once (30_encoding.md R121). -/
def State.applyWrites (s : State) (w : Writes) : State :=
  { s with
    ram := match w.ram with
      | none => s.ram
      | some (a, bs) => s.ram.writeBytes a bs
    slots := match w.slot with
      | none => s.slots
      | some (i, k) => s.slots.set i.val k
    totp := match w.totp with
      | none => s.totp
      | some t => t }

/-- The completion registers after a command without error (30_encoding.md R121). -/
def State.finishOk (s : State) (n : Nat) : State :=
  { s with resultLen := BitVec.ofNat 32 n, errcode := 0, status := s.status.completed }

/-- TAKING AN ERROR: what an error records, and nothing else (60_exceptions.md R301, R306). There is no vector, no saved
context and no mode change. The way back is the host's write of 1 to `STATUS.ERR` (R307, `Status.clearOnes`). -/
def State.finishError (s : State) (e : CmdError) : State :=
  { s with resultLen := 0, errcode := e.code, status := s.status.failed }

/-- The completion of a command, one indivisible step (30_encoding.md R121). -/
def State.complete (s : State) : CmdResult → Host.Outcome State Fault Refusal
  | .ok w n => .next ((s.applyWrites w).finishOk n)
  | .error e => .next (s.finishError e)
  | .uninit => .fault .uninitRead

/-- An accepted `CMD` write of `w`: `CMD`, the latch, BUSY and DONE (10_state.md R44, R46). -/
def State.accept (s : State) (w : Word) : State :=
  { s with
    cmd := w
    latch :=
      { cmd := w
        srcAddr := s.operands.srcAddr
        srcLen := s.operands.srcLen
        dstAddr := s.operands.dstAddr
        outLen := s.operands.outLen
        time := s.operands.timeHi ++ s.operands.timeLo
        totpCand := s.operands.totpCand }
    status := s.status.issued }

/-- A dropped `CMD` write: `CMD` and the latch unchanged, OVERRUN set (10_state.md R44). -/
def State.drop (s : State) : State := { s with status := s.status.dropped }

end Sys2Proof.Machine
end

