-- ==== Sys2Proof/Machine/XteaCore.lean ====
section
/-! DEFINITION. The XTEA block function, its block-by-block use and the length-prefix framing (43_xtea.md R230 to R235). -/

namespace Sys2Proof

/-- `delta` (R231). -/
def xteaDelta : Word := 0x9E3779B9

/-- The sum at the start of decryption, delta * 32 modulo 2^32 (R232). -/
def xteaDecSum : Word := 0xC6EF3720

/-- `key[i]` of the four subkeys. -/
def subkey (key : List Word) (i : Word) : Word := key.getD i.toNat 0

/-- `(((v << 4) ^ (v >> 5)) + v) ^ (sum + k)`, what a half-round adds or subtracts (R231, R232). -/
def xteaMix (v sum k : Word) : Word := (((v <<< 4) ^^^ (v >>> 5)) + v) ^^^ (sum + k)

/-- `n` rounds of encryption from the halves and the sum (R231). -/
def xteaEncRounds (key : List Word) : Nat → Word → Word × Word → Word × Word
  | 0, _, v => v
  | n + 1, sum, (v0, v1) =>
    let v0' := v0 + xteaMix v1 sum (subkey key (sum &&& 3))
    let sum' := sum + xteaDelta
    let v1' := v1 + xteaMix v0' sum' (subkey key ((sum' >>> 11) &&& 3))
    xteaEncRounds key n sum' (v0', v1')

/-- `EncBlock(key, v0, v1)` (R231). -/
def encBlock (key : List Word) (v : Word × Word) : Word × Word := xteaEncRounds key 32 0 v

/-- `n` rounds of decryption from the halves and the sum (R232). -/
def xteaDecRounds (key : List Word) : Nat → Word → Word × Word → Word × Word
  | 0, _, v => v
  | n + 1, sum, (v0, v1) =>
    let v1' := v1 - xteaMix v0 sum (subkey key ((sum >>> 11) &&& 3))
    let sum' := sum - xteaDelta
    let v0' := v0 - xteaMix v1' sum' (subkey key (sum' &&& 3))
    xteaDecRounds key n sum' (v0', v1')

/-- `DecBlock(key, v0, v1)` (R232). -/
def decBlock (key : List Word) (v : Word × Word) : Word × Word := xteaDecRounds key 32 xteaDecSum v

/-- An 8-byte block as its halves (R230). -/
def blockHalves (b : List Byte) : Word × Word := (le32 b, le32 (b.drop 4))

/-- The halves as an 8-byte block (R230). -/
def halvesBytes (v : Word × Word) : List Byte := le32bytes v.1 ++ le32bytes v.2

/-- The four subkeys of a slot's key bytes (R230). -/
def subkeys (key : List Byte) : List Word := ((chunks 4 key).take 4).map le32

/-- `EcbEnc(key, D)` (R233). -/
def ecbEnc (key : List Word) (d : List Byte) : List Byte :=
  (chunks 8 d).flatMap fun b => halvesBytes (encBlock key (blockHalves b))

/-- `EcbDec(key, D)` (R233). -/
def ecbDec (key : List Word) (d : List Byte) : List Byte :=
  (chunks 8 d).flatMap fun b => halvesBytes (decBlock key (blockHalves b))

/-- `FramedLen(n)` (R234). -/
def framedLen (n : Nat) : Nat := 8 * ((n + 4 + 7) / 8)

/-- `Frame(x)` (R234). -/
def frame (x : List Byte) : List Byte :=
  leBytes 4 x.length ++ x ++ zeros ((8 - (x.length + 4) % 8) % 8)

/-- The length prefix of a decrypted buffer, unsigned (R235). -/
def framePrefix (f : List Byte) : Nat := (le32 f).toNat

/-- `Unframe(F)`: none where the prefix exceeds the bytes after it, which makes the input malformed (R235). -/
def unframe (f : List Byte) : Option (List Byte) :=
  if framePrefix f > f.length - 4 then none else some ((f.drop 4).take (framePrefix f))

end Sys2Proof
end

