-- ==== Sys2Proof/Machine/Operands.lean ====
section
/-! DEFINITION. Every operand form of the commands: the ranges of the latch, the named slot, the key kind, the time
(30_encoding.md R112, 20_memory.md R90, 41_key_derivation.md R181, R192, 70_reset_and_hazards.md R352). -/

namespace Sys2Proof.Machine

/-- A range of the data RAM: address and length, in unbounded integers (20_memory.md R90). -/
structure Range where
  addr : Nat
  len : Nat
  deriving DecidableEq, Repr

/-- A valid range (20_memory.md R90). -/
abbrev Range.valid (r : Range) (p : Params) : Prop := r.addr + r.len ≤ p.bufBytes

/-- The access to `n` bytes at `a` touches the range, clipped to the data RAM (70_reset_and_hazards.md R351, R352). -/
abbrev Range.touches (r : Range) (p : Params) (a n : Nat) : Prop :=
  max r.addr a < min (min (r.addr + r.len) p.bufBytes) (a + n)

/-- The source range (10_state.md R41). -/
def Latch.source (l : Latch) : Range := { addr := l.srcAddr.toNat, len := l.srcLen.toNat }

/-- The destination range of `n` bytes (10_state.md R41). -/
def Latch.dest (l : Latch) (n : Nat) : Range := { addr := l.dstAddr.toNat, len := n }

/-- `MemRead` of a range in a command: an unwritten byte ends it (20_memory.md R93). -/
def State.withBytes (s : State) (r : Range) (k : List Byte → CmdResult) : CmdResult :=
  match s.ram.readBytes r.addr r.len with
  | none => .uninit
  | some bytes => k bytes

/-- `MemWrite` of the bytes at the destination, and `ok` with their number. -/
def Latch.output (l : Latch) (bytes : List Byte) (n : Nat) : CmdResult :=
  .ok { ram := some (l.dstAddr.toNat, bytes) } n

/-- The kind of slot that holds a key of a kind (10_state.md R48). -/
def slotKindOf : KeyKind → SlotKind
  | .rc4 => .rc4
  | .xtea => .xtea

/-- `KeyLen(kind)` (41_key_derivation.md R181). -/
def keyLen : KeyKind → Nat
  | .rc4 => 256
  | .xtea => 128

/-- The slot that holds the key bytes `key` of a kind, zero-filled to 256 bytes (41_key_derivation.md R186, R188). -/
def keyedSlot (kind : KeyKind) (key : List Byte) : KeySlot :=
  { kind := slotKindOf kind, key := key ++ zeros (256 - key.length) }

/-- The kind code of a slot (10_state.md R48). -/
def SlotKind.code : SlotKind → Nat
  | .empty => 0
  | .rc4 => 1
  | .xtea => 2

/-- The length of the nominal destination range of a command (70_reset_and_hazards.md R352). -/
def nominalLen (l : Latch) : Instr → Nat
  | .nop => 0
  | .derive => l.outLen.toNat
  | .deriveKey _ _ => 0
  | .loadKey _ _ => 0
  | .clearKey _ => 0
  | .rc4 _ => l.srcLen.toNat
  | .xteaEnc _ => framedLen l.srcLen.toNat
  | .xteaDec _ => if 4 ≤ l.srcLen.toNat then l.srcLen.toNat - 4 else 0
  | .xteaEcbEnc _ => l.srcLen.toNat
  | .xteaEcbDec _ => l.srcLen.toNat
  | .totpGen => 0
  | .totpValidate _ => 0

/-- The nominal destination range of the pending command; an illegal word has an empty one (70_reset_and_hazards.md R352). -/
def State.nominalDest (s : State) : Range :=
  match decode s.params.numSlots s.latch.cmd with
  | .ok i => s.latch.dest (nominalLen s.latch i)
  | .error _ => s.latch.dest 0

end Sys2Proof.Machine
end

