-- ==== Sys2Proof/Machine/Control.lean ====
section
/-! DEFINITION. The control commands (45_control.md). -/

namespace Sys2Proof.Machine

/-- `NOP` (45_control.md R290): nothing but completion. -/
def execNop (s : State) : Host.Outcome State Fault Refusal := s.complete (.ok {} 0)

end Sys2Proof.Machine
end

