-- ==== Sys2Proof/Machine/Sha1.lean ====
section
/-! DEFINITION. Message padding and SHA-1 (40_primitives.md R140, R141). -/

namespace Sys2Proof

/-- `Pad(m)` (R140). -/
def padMessage (m : List Byte) : List Byte :=
  m ++ [0x80] ++ zeros ((64 - (m.length + 9) % 64) % 64) ++ be64bytes (8 * m.length)

/-- The sixteen big-endian words of a 64-byte block (R140). -/
def blockWords (block : List Byte) : List Word := (chunks 4 block).map be32

/-- `rotl(x, n)` (R141). -/
def rotl (x : Word) (n : Nat) : Word := (x <<< n) ||| (x >>> (32 - n))

/-- The chaining value `H0..H4`, and the working variables `a..e` (R141). -/
structure Sha1Regs where
  a : Word
  b : Word
  c : Word
  d : Word
  e : Word
  deriving DecidableEq, Repr

/-- The initial `H` (R141). -/
def sha1Init : Sha1Regs := ⟨0x67452301, 0xEFCDAB89, 0x98BADCFE, 0x10325476, 0xC3D2E1F0⟩

/-- `n` more words `Wt = rotl(W(t-3) ^ W(t-8) ^ W(t-14) ^ W(t-16), 1)` after the words `w` (R141). -/
def sha1Extend : Nat → List Word → List Word
  | 0, w => w
  | n + 1, w =>
    let t := w.length
    sha1Extend n
      (w ++ [rotl (w.getD (t - 3) 0 ^^^ w.getD (t - 8) 0 ^^^ w.getD (t - 14) 0 ^^^ w.getD (t - 16) 0) 1])

/-- The function `f` of round `t` (R141). -/
def sha1F (t : Nat) (b c d : Word) : Word :=
  if t ≤ 19 then (b &&& c) ||| (~~~b &&& d)
  else if t ≤ 39 then b ^^^ c ^^^ d
  else if t ≤ 59 then (b &&& c) ||| (b &&& d) ||| (c &&& d)
  else b ^^^ c ^^^ d

/-- The constant `k` of round `t` (R141). -/
def sha1K (t : Nat) : Word :=
  if t ≤ 19 then 0x5A827999 else if t ≤ 39 then 0x6ED9EBA1 else if t ≤ 59 then 0x8F1BBCDC else 0xCA62C1D6

/-- Round `t` with the word `w` (R141). -/
def sha1Round (t : Nat) (w : Word) (r : Sha1Regs) : Sha1Regs :=
  ⟨rotl r.a 5 + sha1F t r.b r.c r.d + r.e + sha1K t + w, r.a, rotl r.b 30, r.c, r.d⟩

/-- The rounds from `t` on, one for each word (R141). -/
def sha1Rounds : Nat → List Word → Sha1Regs → Sha1Regs
  | _, [], r => r
  | t, w :: ws, r => sha1Rounds (t + 1) ws (sha1Round t w r)

/-- The chaining value after one block (R141). -/
def sha1Block (h : Sha1Regs) (block : List Byte) : Sha1Regs :=
  let r := sha1Rounds 0 (sha1Extend 64 (blockWords block)) h
  ⟨h.a + r.a, h.b + r.b, h.c + r.c, h.d + r.d, h.e + r.e⟩

/-- `SHA1(m)`, 20 bytes (R141). -/
def sha1 (m : List Byte) : List Byte :=
  let h := (chunks 64 (padMessage m)).foldl sha1Block sha1Init
  be32bytes h.a ++ be32bytes h.b ++ be32bytes h.c ++ be32bytes h.d ++ be32bytes h.e

end Sys2Proof
end

