-- ==== Sys2Proof/Machine/Sha256.lean ====
section
/-! DEFINITION. SHA-256 (40_primitives.md R142, R143). -/

namespace Sys2Proof

/-- The round constants `K0..K63` (R142). -/
def sha256Constants : List Word :=
  [0x428A2F98, 0x71374491, 0xB5C0FBCF, 0xE9B5DBA5, 0x3956C25B, 0x59F111F1, 0x923F82A4, 0xAB1C5ED5,
   0xD807AA98, 0x12835B01, 0x243185BE, 0x550C7DC3, 0x72BE5D74, 0x80DEB1FE, 0x9BDC06A7, 0xC19BF174] ++
  [0xE49B69C1, 0xEFBE4786, 0x0FC19DC6, 0x240CA1CC, 0x2DE92C6F, 0x4A7484AA, 0x5CB0A9DC, 0x76F988DA,
   0x983E5152, 0xA831C66D, 0xB00327C8, 0xBF597FC7, 0xC6E00BF3, 0xD5A79147, 0x06CA6351, 0x14292967] ++
  [0x27B70A85, 0x2E1B2138, 0x4D2C6DFC, 0x53380D13, 0x650A7354, 0x766A0ABB, 0x81C2C92E, 0x92722C85,
   0xA2BFE8A1, 0xA81A664B, 0xC24B8B70, 0xC76C51A3, 0xD192E819, 0xD6990624, 0xF40E3585, 0x106AA070] ++
  [0x19A4C116, 0x1E376C08, 0x2748774C, 0x34B0BCB5, 0x391C0CB3, 0x4ED8AA4A, 0x5B9CCA4F, 0x682E6FF3,
   0x748F82EE, 0x78A5636F, 0x84C87814, 0x8CC70208, 0x90BEFFFA, 0xA4506CEB, 0xBEF9A3F7, 0xC67178F2]

/-- `rotr(x, n)` (R143). -/
def rotr (x : Word) (n : Nat) : Word := (x >>> n) ||| (x <<< (32 - n))

/-- The chaining value `H0..H7`, and the working variables `a..h` (R143). -/
structure Sha256Regs where
  a : Word
  b : Word
  c : Word
  d : Word
  e : Word
  f : Word
  g : Word
  h : Word
  deriving DecidableEq, Repr

/-- The initial hash value (R142). -/
def sha256Init : Sha256Regs :=
  ⟨0x6A09E667, 0xBB67AE85, 0x3C6EF372, 0xA54FF53A, 0x510E527F, 0x9B05688C, 0x1F83D9AB, 0x5BE0CD19⟩

/-- `s0` of the message schedule (R143). -/
def sha256s0 (x : Word) : Word := rotr x 7 ^^^ rotr x 18 ^^^ (x >>> 3)

/-- `s1` of the message schedule (R143). -/
def sha256s1 (x : Word) : Word := rotr x 17 ^^^ rotr x 19 ^^^ (x >>> 10)

/-- `n` more words `Wt = W(t-16) + s0 + W(t-7) + s1` after the words `w` (R143). -/
def sha256Extend : Nat → List Word → List Word
  | 0, w => w
  | n + 1, w =>
    let t := w.length
    sha256Extend n
      (w ++ [w.getD (t - 16) 0 + sha256s0 (w.getD (t - 15) 0) + w.getD (t - 7) 0 + sha256s1 (w.getD (t - 2) 0)])

/-- `t1` of a round with the constant `k` and the word `w` (R143). -/
def sha256T1 (k w : Word) (r : Sha256Regs) : Word :=
  r.h + (rotr r.e 6 ^^^ rotr r.e 11 ^^^ rotr r.e 25) + ((r.e &&& r.f) ^^^ (~~~r.e &&& r.g)) + k + w

/-- `t2` of a round (R143). -/
def sha256T2 (r : Sha256Regs) : Word :=
  (rotr r.a 2 ^^^ rotr r.a 13 ^^^ rotr r.a 22) + ((r.a &&& r.b) ^^^ (r.a &&& r.c) ^^^ (r.b &&& r.c))

/-- A round with the constant `k` and the word `w` (R143). -/
def sha256Round (k w : Word) (r : Sha256Regs) : Sha256Regs :=
  ⟨sha256T1 k w r + sha256T2 r, r.a, r.b, r.c, r.d + sha256T1 k w r, r.e, r.f, r.g⟩

/-- The rounds, one for each pair of a constant and a word (R143). -/
def sha256Rounds : List Word → List Word → Sha256Regs → Sha256Regs
  | k :: ks, w :: ws, r => sha256Rounds ks ws (sha256Round k w r)
  | _, _, r => r

/-- The chaining value after one block (R143). -/
def sha256Block (h : Sha256Regs) (block : List Byte) : Sha256Regs :=
  let r := sha256Rounds sha256Constants (sha256Extend 48 (blockWords block)) h
  ⟨h.a + r.a, h.b + r.b, h.c + r.c, h.d + r.d, h.e + r.e, h.f + r.f, h.g + r.g, h.h + r.h⟩

/-- `SHA256(m)`, 32 bytes (R143). -/
def sha256 (m : List Byte) : List Byte :=
  let h := (chunks 64 (padMessage m)).foldl sha256Block sha256Init
  be32bytes h.a ++ be32bytes h.b ++ be32bytes h.c ++ be32bytes h.d ++
    be32bytes h.e ++ be32bytes h.f ++ be32bytes h.g ++ be32bytes h.h

end Sys2Proof
end

