-- ==== Sys2Proof/Machine/Hmac.lean ====
section
/-! DEFINITION. HMAC, PBKDF2 and the stretcher (40_primitives.md R144 to R146). -/

namespace Sys2Proof

/-- `k0` of HMAC with the hash `hash`: the key, hashed if longer than 64 bytes, zero-filled to 64 (R144). -/
def hmacKey (hash : List Byte → List Byte) (key : List Byte) : List Byte :=
  let k := if key.length > 64 then hash key else key
  k ++ zeros (64 - k.length)

/-- `HMAC(H, key, msg)` (R144). -/
def hmac (hash : List Byte → List Byte) (key msg : List Byte) : List Byte :=
  let k0 := hmacKey hash key
  hash (xorBytes k0 (List.replicate 64 0x5C) ++ hash (xorBytes k0 (List.replicate 64 0x36) ++ msg))

/-- `HMAC_SHA1` (R144). -/
def hmacSha1 (key msg : List Byte) : List Byte := hmac sha1 key msg

/-- `HMAC_SHA256` (R144). -/
def hmacSha256 (key msg : List Byte) : List Byte := hmac sha256 key msg

/-- `n` more turns of `U = HMAC_SHA1(P, U); T = xor(T, U)` (R145). -/
def pbkdf2Turns (password : List Byte) : Nat → List Byte → List Byte → List Byte
  | 0, _, t => t
  | n + 1, u, t =>
    let u' := hmacSha1 password u
    pbkdf2Turns password n u' (xorBytes t u')

/-- Block `i` of PBKDF2, 20 bytes (R145). -/
def pbkdf2Block (password salt : List Byte) (iterations i : Nat) : List Byte :=
  let u := hmacSha1 password (salt ++ be32bytes (BitVec.ofNat 32 i))
  pbkdf2Turns password (iterations - 1) u u

/-- The first `count` blocks of PBKDF2, from block `i` on, in order (R145). -/
def pbkdf2Blocks (password salt : List Byte) (iterations : Nat) : Nat → Nat → List Byte
  | 0, _ => []
  | count + 1, i => pbkdf2Block password salt iterations i ++ pbkdf2Blocks password salt iterations count (i + 1)

/-- `PBKDF2(P, S, c, n)`: as many whole 20-byte blocks as reach `n` bytes, cut to `n` (R145). -/
def pbkdf2 (password salt : List Byte) (iterations n : Nat) : List Byte :=
  (pbkdf2Blocks password salt iterations ((n + 19) / 20) 1).take n

/-- `Stretch(P, n)` with the block's iteration count (R146). -/
def stretch (iterations : Nat) (password : List Byte) (n : Nat) : List Byte :=
  pbkdf2 password password.reverse iterations n

end Sys2Proof
end

