-- ==== Sys2Proof/Machine/KeyDerivation.lean ====
section
/-! DEFINITION. Key derivation and the key slots (41_key_derivation.md). -/

namespace Sys2Proof.Machine

/-- The result of `DERIVE` (41_key_derivation.md R184). -/
def runDerive (s : State) : CmdResult :=
  if ¬ s.latch.source.valid s.params then .error .range
  else if ¬ (s.latch.dest s.latch.outLen.toNat).valid s.params then .error .range
  else s.withBytes s.latch.source fun password =>
    s.latch.output (stretch s.params.pbkdfIter password s.latch.outLen.toNat) s.latch.outLen.toNat

/-- The result of `DERIVE_KEY` (41_key_derivation.md R186). -/
def runDeriveKey (slot : SlotIx) (kind : KeyKind) (s : State) : CmdResult :=
  if ¬ s.latch.source.valid s.params then .error .range
  else s.withBytes s.latch.source fun password =>
    .ok { slot := some (slot, keyedSlot kind (stretch s.params.pbkdfIter password (keyLen kind))) } 0

/-- The result of `LOAD_KEY` (41_key_derivation.md R188). -/
def runLoadKey (slot : SlotIx) (kind : KeyKind) (s : State) : CmdResult :=
  if ¬ s.latch.source.valid s.params then .error .range
  else if kind = .rc4 ∧ s.latch.srcLen.toNat = 0 then .error .emptyKey
  else if s.latch.srcLen.toNat ≠ keyLen kind then .error .invalidKeyMaterial
  else s.withBytes s.latch.source fun key => .ok { slot := some (slot, keyedSlot kind key) } 0

/-- `DERIVE` (41_key_derivation.md R184). -/
def execDerive (s : State) : Host.Outcome State Fault Refusal := s.complete (runDerive s)

/-- `DERIVE_KEY` (41_key_derivation.md R186). -/
def execDeriveKey (slot : SlotIx) (kind : KeyKind) (s : State) : Host.Outcome State Fault Refusal :=
  s.complete (runDeriveKey slot kind s)

/-- `LOAD_KEY` (41_key_derivation.md R188). -/
def execLoadKey (slot : SlotIx) (kind : KeyKind) (s : State) : Host.Outcome State Fault Refusal :=
  s.complete (runLoadKey slot kind s)

/-- `CLEAR_KEY` (41_key_derivation.md R190). -/
def execClearKey (slot : SlotIx) (s : State) : Host.Outcome State Fault Refusal :=
  s.complete (.ok { slot := some (slot, KeySlot.cleared) } 0)

end Sys2Proof.Machine
end

