-- ==== Sys2Proof/Machine/Rc4Core.lean ====
section
/-! DEFINITION. The RC4 key schedule and keystream (42_rc4.md R210, R211). -/

namespace Sys2Proof

/-- The table with the entries `i` and `j` swapped. -/
def swapEntries (table : List Byte) (i j : Nat) : List Byte :=
  (table.set i (table.getD j 0)).set j (table.getD i 0)

/-- The table before the key schedule: `S[i] = i` (R210). -/
def identityTable : List Byte := (List.range 256).map (BitVec.ofNat 8)

/-- `n` turns of the key schedule from `i` on, with the cursor `j` (R210). -/
def ksaTurns (key : List Byte) : Nat → Nat → Byte → List Byte → List Byte
  | 0, _, _, table => table
  | n + 1, i, j, table =>
    let j' := j + table.getD i 0 + key.getD (i % key.length) 0
    ksaTurns key n (i + 1) j' (swapEntries table i j'.toNat)

/-- `KSA(K)` (R210). -/
def ksa (key : List Byte) : List Byte := ksaTurns key 256 0 0 identityTable

/-- `n` keystream bytes from the cursors `i`, `j` and the table (R211). -/
def keystream : Nat → Byte → Byte → List Byte → List Byte
  | 0, _, _, _ => []
  | n + 1, i, j, table =>
    let i' := i + 1
    let j' := j + table.getD i'.toNat 0
    let table' := swapEntries table i'.toNat j'.toNat
    table'.getD (table'.getD i'.toNat 0 + table'.getD j'.toNat 0).toNat 0 :: keystream n i' j' table'

/-- `RC4Stream(K, n)` (R211). -/
def rc4Stream (key : List Byte) (n : Nat) : List Byte := keystream n 0 0 (ksa key)

end Sys2Proof
end

