-- ==== Sys2Proof/Machine/Rc4.lean ====
section
/-! DEFINITION. The command `RC4` (42_rc4.md). -/

namespace Sys2Proof.Machine

/-- The result of `RC4` (42_rc4.md R214). -/
def runRc4 (slot : SlotIx) (s : State) : CmdResult :=
  if (s.slot slot).kind ≠ .rc4 then .error .keyNotLoaded
  else if ¬ s.latch.source.valid s.params then .error .range
  else if ¬ (s.latch.dest s.latch.srcLen.toNat).valid s.params then .error .range
  else s.withBytes s.latch.source fun x =>
    s.latch.output (xorBytes x (rc4Stream (s.slot slot).key s.latch.srcLen.toNat)) s.latch.srcLen.toNat

/-- `RC4` (42_rc4.md R214). -/
def execRc4 (slot : SlotIx) (s : State) : Host.Outcome State Fault Refusal := s.complete (runRc4 slot s)

end Sys2Proof.Machine
end

