-- ==== Sys2Proof/Machine/TotpCore.lean ====
section
/-! DEFINITION. Windows of time, the truncation and the one-time code (44_totp.md R260 to R265). -/

namespace Sys2Proof

/-- The decimal digits of `n` before the digits `acc`, most significant first; `fuel` bounds their number. -/
def decimalDigits : Nat → Nat → List Byte → List Byte
  | 0, _, acc => acc
  | fuel + 1, n, acc =>
    let acc' := BitVec.ofNat 8 (0x30 + n % 10) :: acc
    if n / 10 = 0 then acc' else decimalDigits fuel (n / 10) acc'

/-- `TsText(T)` (R262). The reference instance is the ASCII decimal digits of `T`, no sign, no leading zeros; a
number has no more decimal digits than binary ones. -/
def tsText : TsFormat → Nat → List Byte
  | .decimal, t => decimalDigits (Nat.log2 t + 1) t []
  | .platform which, t => Config.platformText which t

/-- The start of the window that contains `t` (R260). -/
def windowStart (t : Nat) : Nat := t - t % 60

/-- `Secs(t)`: the seconds that remain in the window (R261). -/
def secsRemaining (t : Nat) : Nat := 60 - t % 60

/-- `Truncate(h)` (R263), step by step as the source has it. -/
def truncateDigest (h : List Byte) : Word :=
  let o := (h.getD 31 0 &&& 0x0F).toNat
  let b0 := (h.getD o 0 &&& 0x7F).toNat
  let b1 := (h.getD (o + 1) 0).toNat
  let b2 := (h.getD (o + 2) 0).toNat
  let b3 := (h.getD (o + 3) 0).toNat % 1000000
  (BitVec.ofNat 32 b0 <<< 24) ||| (BitVec.ofNat 32 b1 <<< 16) ||| (BitVec.ofNat 32 b2 <<< 8) ||| BitVec.ofNat 32 b3

/-- `Otp(seed, T)` (R265): the HMAC key is the time text, the message the seed. -/
def otp (ts : TsFormat) (seed : List Byte) (t : Nat) : Word := truncateDigest (hmacSha256 (tsText ts t) seed)

end Sys2Proof
end

