-- ==== Sys2Proof/Machine/Totp.lean ====
section
/-! DEFINITION. The TOTP commands (44_totp.md). -/

namespace Sys2Proof.Machine

/-- The OTP object of a seed at time `t` (44_totp.md R266). -/
def totpObject (ts : TsFormat) (seed : List Byte) (t : Nat) : TotpRegs :=
  { code := otp ts seed (windowStart t)
    last := otp ts seed (windowStart t - 60)
    secs := BitVec.ofNat 32 (secsRemaining t)
    present := true
    matched := false }

/-- The result of `TOTP_GEN` (44_totp.md R266). -/
def runTotpGen (s : State) : CmdResult :=
  if ¬ s.latch.source.valid s.params then .error .range
  else if s.latch.time.toNat < 60 then .error .range
  else s.withBytes s.latch.source fun seed =>
    .ok { totp := some (totpObject s.params.ts seed s.latch.time.toNat) } 0

/-- `m` of `TOTP_VALIDATE` (44_totp.md R268): the candidate is the code, or, with `A`, the last code. -/
def totpMatches (t : TotpRegs) (allowLast : Bool) (candidate : Word) : Bool :=
  candidate == t.code || (allowLast && candidate == t.last)

/-- The result of `TOTP_VALIDATE` (44_totp.md R268). -/
def runTotpValidate (allowLast : Bool) (s : State) : CmdResult :=
  if s.totp.present = false then .error .noOtp
  else .ok { totp := some { s.totp with matched := totpMatches s.totp allowLast s.latch.totpCand } } 0

/-- `TOTP_GEN` (44_totp.md R266). -/
def execTotpGen (s : State) : Host.Outcome State Fault Refusal := s.complete (runTotpGen s)

/-- `TOTP_VALIDATE` (44_totp.md R268). -/
def execTotpValidate (allowLast : Bool) (s : State) : Host.Outcome State Fault Refusal :=
  s.complete (runTotpValidate allowLast s)

end Sys2Proof.Machine
end

