-- ==== Sys2Proof/Machine/Xtea.lean ====
section
/-! DEFINITION. The XTEA commands (43_xtea.md). -/

namespace Sys2Proof.Machine

/-- The result of `XTEA_ENC` (43_xtea.md R236). -/
def runXteaEnc (slot : SlotIx) (s : State) : CmdResult :=
  if (s.slot slot).kind ≠ .xtea then .error .keyNotLoaded
  else if ¬ s.latch.source.valid s.params then .error .range
  else if ¬ (s.latch.dest (framedLen s.latch.srcLen.toNat)).valid s.params then .error .range
  else s.withBytes s.latch.source fun x =>
    s.latch.output (ecbEnc (subkeys (s.slot slot).key) (frame x)) (framedLen s.latch.srcLen.toNat)

/-- What `XTEA_DEC` does with the decrypted buffer (43_xtea.md R238, R235). -/
def finishDec (s : State) (f : List Byte) : CmdResult :=
  match unframe f with
  | none => .error .malformedCiphertext
  | some x =>
    if ¬ (s.latch.dest (framePrefix f)).valid s.params then .error .range
    else s.latch.output x (framePrefix f)

/-- The result of `XTEA_DEC` (43_xtea.md R238). -/
def runXteaDec (slot : SlotIx) (s : State) : CmdResult :=
  if (s.slot slot).kind ≠ .xtea then .error .keyNotLoaded
  else if ¬ s.latch.source.valid s.params then .error .range
  else if s.latch.srcLen.toNat % 8 ≠ 0 ∨ s.latch.srcLen.toNat < 8 then .error .malformedCiphertext
  else s.withBytes s.latch.source fun c => finishDec s (ecbDec (subkeys (s.slot slot).key) c)

/-- The unframed commands, with the block-by-block function `f` (43_xtea.md R240, R242). -/
def runXteaEcb (f : List Word → List Byte → List Byte) (slot : SlotIx) (s : State) : CmdResult :=
  if (s.slot slot).kind ≠ .xtea then .error .keyNotLoaded
  else if ¬ s.latch.source.valid s.params then .error .range
  else if s.latch.srcLen.toNat % 8 ≠ 0 then .error .malformedCiphertext
  else if ¬ (s.latch.dest s.latch.srcLen.toNat).valid s.params then .error .range
  else s.withBytes s.latch.source fun d =>
    s.latch.output (f (subkeys (s.slot slot).key) d) s.latch.srcLen.toNat

/-- `XTEA_ENC` (43_xtea.md R236). -/
def execXteaEnc (slot : SlotIx) (s : State) : Host.Outcome State Fault Refusal := s.complete (runXteaEnc slot s)

/-- `XTEA_DEC` (43_xtea.md R238). -/
def execXteaDec (slot : SlotIx) (s : State) : Host.Outcome State Fault Refusal := s.complete (runXteaDec slot s)

/-- `XTEA_ECB_ENC` (43_xtea.md R240). -/
def execXteaEcbEnc (slot : SlotIx) (s : State) : Host.Outcome State Fault Refusal := s.complete (runXteaEcb ecbEnc slot s)

/-- `XTEA_ECB_DEC` (43_xtea.md R242). -/
def execXteaEcbDec (slot : SlotIx) (s : State) : Host.Outcome State Fault Refusal := s.complete (runXteaEcb ecbDec slot s)

end Sys2Proof.Machine
end

