-- ==== Sys2Proof/Machine/Dispatch.lean ====
section
/-! DEFINITION. Every command's meaning, one arm per constructor (30_encoding.md R121, `Execute`). -/

namespace Sys2Proof.Machine

def exec (i : Instr) (s : State) : Host.Outcome State Fault Refusal :=
  match i with
  | .nop => Sys2Proof.Machine.execNop s
  | .derive => Sys2Proof.Machine.execDerive s
  | .deriveKey slot kind => Sys2Proof.Machine.execDeriveKey slot kind s
  | .loadKey slot kind => Sys2Proof.Machine.execLoadKey slot kind s
  | .clearKey slot => Sys2Proof.Machine.execClearKey slot s
  | .rc4 slot => Sys2Proof.Machine.execRc4 slot s
  | .xteaEnc slot => Sys2Proof.Machine.execXteaEnc slot s
  | .xteaDec slot => Sys2Proof.Machine.execXteaDec slot s
  | .xteaEcbEnc slot => Sys2Proof.Machine.execXteaEcbEnc slot s
  | .xteaEcbDec slot => Sys2Proof.Machine.execXteaEcbDec slot s
  | .totpGen => Sys2Proof.Machine.execTotpGen s
  | .totpValidate allowLast => Sys2Proof.Machine.execTotpValidate allowLast s

end Sys2Proof.Machine
end

