-- ==== Sys2Proof/Machine/Registers.lean ====
section
/-! DEFINITION. The register map (10_state.md R34 to R45), reset (70_reset_and_hazards.md R340 to R344), and what a host read or write of
each register does. -/

namespace Sys2Proof.Machine

/-- The registers of 10_state.md R35. -/
inductive Register where
  | id
  | config
  | ctrl
  | status
  | errcode
  | cmd
  | srcAddr
  | srcLen
  | dstAddr
  | outLen
  | resultLen
  | timeLo
  | timeHi
  | totpCand
  | totpCode
  | totpLast
  | totpSecs
  | totpStatus
  | keystat
  deriving DecidableEq, Repr

/-- The offset of a register in the register window (10_state.md R35). -/
def Register.offset : Register → Nat
  | .id => 0x000
  | .config => 0x004
  | .ctrl => 0x008
  | .status => 0x00C
  | .errcode => 0x010
  | .cmd => 0x014
  | .srcAddr => 0x018
  | .srcLen => 0x01C
  | .dstAddr => 0x020
  | .outLen => 0x024
  | .resultLen => 0x028
  | .timeLo => 0x02C
  | .timeHi => 0x030
  | .totpCand => 0x034
  | .totpCode => 0x038
  | .totpLast => 0x03C
  | .totpSecs => 0x040
  | .totpStatus => 0x044
  | .keystat => 0x048

/-- The registers in the order of their offsets. -/
def Register.all : List Register :=
  [.id, .config, .ctrl, .status, .errcode, .cmd, .srcAddr, .srcLen, .dstAddr, .outLen, .resultLen, .timeLo, .timeHi,
   .totpCand, .totpCode, .totpLast, .totpSecs, .totpStatus, .keystat]

/-- The register at an offset, none where the offset is reserved (10_state.md R35). -/
def Register.at? (off : Nat) : Option Register := Register.all.find? (fun r => r.offset == off)

/-- `ID` (10_state.md R36). -/
def idWord : Word := 0x41534301

/-- `CONFIG` (10_state.md R37). -/
def configWord (p : Params) : Word := BitVec.ofNat 32 (p.pbkdfIter + 256 * p.numSlots + 65536 * p.bufLog2)

/-- The kind codes of the slots, two bits each, slot 0 lowest (10_state.md R45). -/
def keystatValue : List KeySlot → Nat
  | [] => 0
  | k :: ks => k.kind.code + 4 * keystatValue ks

/-- What a host read of a register returns (10_state.md R36 to R45). -/
def State.readRegister (s : State) : Register → Word
  | .id => idWord
  | .config => configWord s.params
  | .ctrl => s.ctrl.word
  | .status => s.status.word
  | .errcode => s.errcode.setWidth 32
  | .cmd => s.cmd
  | .srcAddr => s.operands.srcAddr
  | .srcLen => s.operands.srcLen
  | .dstAddr => s.operands.dstAddr
  | .outLen => s.operands.outLen
  | .resultLen => s.resultLen
  | .timeLo => s.operands.timeLo
  | .timeHi => s.operands.timeHi
  | .totpCand => s.operands.totpCand
  | .totpCode => s.totp.code
  | .totpLast => s.totp.last
  | .totpSecs => s.totp.secs
  | .totpStatus => s.totp.statusWord
  | .keystat => BitVec.ofNat 32 (keystatValue s.slots)

/-- The data RAM a reset leaves: unchanged, but for the nominal destination of a pending command, whose bytes become
unwritten (70_reset_and_hazards.md R341, R344). -/
def State.ramAfterReset (s : State) : Memory :=
  if s.status.busy then s.ram.forget s.nominalDest.addr s.nominalDest.len else s.ram

/-- The effect of the reset input and of `CTRL.SRST` (70_reset_and_hazards.md R342 to R344). -/
def State.hardReset (s : State) : State := State.resetWith s.params s.ramAfterReset s.inputs s.reply

/-- Power lost and back: reset, and nothing of the data RAM is kept (60_exceptions.md R317, 70_reset_and_hazards.md R341). -/
def State.powerCycle (s : State) : State := State.resetWith s.params [] s.inputs s.reply

/-- A host write to `CTRL` (10_state.md R38, 70_reset_and_hazards.md R343). -/
def State.writeCtrl (s : State) (v : Word) : State :=
  if v.getLsbD 0 then s.hardReset else { s with ctrl := Ctrl.ofWord v }

/-- A host write to `CMD` (10_state.md R44). -/
def State.writeCmd (s : State) (v : Word) : State := if s.status.busy then s.drop else s.accept v

/-- What a host write of `v` to a register does (10_state.md R34, R38 to R44); a read-only register ignores it. -/
def State.writeRegister (s : State) (r : Register) (v : Word) : State :=
  match r with
  | .id => s
  | .config => s
  | .ctrl => s.writeCtrl v
  | .status => { s with status := s.status.clearOnes v }
  | .errcode => s
  | .cmd => s.writeCmd v
  | .srcAddr => { s with operands := { s.operands with srcAddr := v } }
  | .srcLen => { s with operands := { s.operands with srcLen := v } }
  | .dstAddr => { s with operands := { s.operands with dstAddr := v } }
  | .outLen => { s with operands := { s.operands with outLen := v } }
  | .resultLen => s
  | .timeLo => { s with operands := { s.operands with timeLo := v } }
  | .timeHi => { s with operands := { s.operands with timeHi := v } }
  | .totpCand => { s with operands := { s.operands with totpCand := v } }
  | .totpCode => s
  | .totpLast => s
  | .totpSecs => s
  | .totpStatus => s
  | .keystat => s

/-- A host read at an offset of the register window; a reserved offset reads 0 (10_state.md R35). -/
def State.readOffset (s : State) (off : Nat) : Word :=
  match Register.at? off with
  | none => 0
  | some r => s.readRegister r

/-- A host write at an offset of the register window; a reserved offset ignores it (10_state.md R35). -/
def State.writeOffset (s : State) (off : Nat) (v : Word) : State :=
  match Register.at? off with
  | none => s
  | some r => s.writeRegister r v

end Sys2Proof.Machine
end

