-- ==== Sys2Proof/Machine/HostPort.lean ====
section
/-! DEFINITION. Host accesses through the window: the address map, the hazards, little-endian RAM accesses
(20_memory.md R80, R83 to R88, 70_reset_and_hazards.md R351 to R354). -/

namespace Sys2Proof.Machine

/-- The bytes of a host access (20_memory.md R88). -/
def Width.bytes : Width → Nat
  | .byte => 1
  | .half => 2
  | .word => 4

/-- The offset of the data RAM in the window (20_memory.md R84). -/
abbrev ramOffset : Nat := 0x100000

/-- The size of the register window (20_memory.md R84). -/
abbrev registerBytes : Nat := 0x1000

/-- What a host access reaches (20_memory.md R84). -/
inductive Target where
  /-- the address is not the block's -/
  | outside
  /-- an offset of the register window -/
  | register (off : Nat)
  /-- an address of the data RAM -/
  | ram (addr : Nat)
  /-- an access that R84 does not allow (R85) -/
  | busError
  deriving DecidableEq, Repr

/-- The window map by offset (20_memory.md R84, R86). The data RAM is in the upper half of the window, so the RAM address
`offset - 0x100000` is the offset's remainder. -/
def windowTarget (p : Params) (off : Nat) (width : Width) : Target :=
  if off < registerBytes then
    if width = .word ∧ off % 4 = 0 then .register off else .busError
  else if ramOffset ≤ off ∧ off % ramOffset < p.bufBytes ∧ off % width.bytes = 0 then .ram (off % ramOffset)
  else .busError

/-- What the access to a host address reaches (20_memory.md R83, R84). -/
def hostTarget (p : Params) (addr : Nat) (width : Width) : Target :=
  if p.windowBase ≤ addr ∧ addr - p.windowBase < Config.windowBytes then windowTarget p (addr - p.windowBase) width
  else .outside

/-- A host read of data RAM is forbidden: the nominal destination of the pending command (70_reset_and_hazards.md R352). -/
abbrev State.readHazard (s : State) (a n : Nat) : Prop :=
  s.status.busy = true ∧ s.nominalDest.touches s.params a n

/-- A host write to data RAM is forbidden: the source range or the nominal destination of the pending command
(70_reset_and_hazards.md R351, R352; a command without a source operand too, log 8). -/
abbrev State.writeHazard (s : State) (a n : Nat) : Prop :=
  s.status.busy = true ∧ (s.latch.source.touches s.params a n ∨ s.nominalDest.touches s.params a n)

/-- The data of a host read, for the host. -/
def State.answer (s : State) (v : Word) : State := { s with reply := some v }

/-- A host read of `n` bytes of data RAM, little-endian (20_memory.md R80). -/
def hostRamRead (s : State) (a n : Nat) : Host.Outcome State Fault Refusal :=
  if s.readHazard a n then .fault .hostHazard
  else match s.ram.readBytes a n with
    | none => .fault .uninitRead
    | some bytes => .next (s.answer (BitVec.ofNat 32 (leValue bytes)))

/-- A host write of `n` bytes of data RAM, little-endian (20_memory.md R80). -/
def hostRamWrite (s : State) (a n : Nat) (v : Word) : Host.Outcome State Fault Refusal :=
  if s.writeHazard a n then .fault .hostHazard
  else .next { s with ram := s.ram.writeBytes a (leBytes n v.toNat) }

/-- A host access (20_memory.md R84, R85). An address outside the window is not the block's. -/
def hostAccess (s : State) : HostAccess → Host.Outcome State Fault Refusal
  | .read addr width =>
    match hostTarget s.params addr width with
    | .outside => .next s
    | .register off => .next (s.answer (s.readOffset off))
    | .ram a => hostRamRead s a width.bytes
    | .busError => .fault .hostBusError
  | .write addr width v =>
    match hostTarget s.params addr width with
    | .outside => .next s
    | .register off => .next (s.writeOffset off v)
    | .ram a => hostRamWrite s a width.bytes v
    | .busError => .fault .hostBusError

end Sys2Proof.Machine
end

