-- ==== Sys2Proof/Machine/Engine.lean ====
section
/-! DEFINITION. The engine's step (30_encoding.md R121) and the events of a step. -/

namespace Sys2Proof.Machine

/-- Perform and complete the pending command: decoding happens here, not at the `CMD` write (30_encoding.md R120, R121). -/
def perform (s : State) : Host.Outcome State Fault Refusal :=
  match decode s.params.numSlots s.latch.cmd with
  | .ok i => exec i s
  | .error _ => .next (s.finishError .illegalCommand)

/-- The engine's turn: it is enabled only while `BUSY` = 1 (30_encoding.md R121); an idle block stays as it is. -/
def engineTurn (s : State) : Host.Outcome State Fault Refusal := if s.status.busy then perform s else .next s

/-- One event at the block. In `engineAndStatusWrite` the completion's bits are set after the write has cleared its own:
set wins (10_state.md R39, 60_exceptions.md R304). -/
def happen (s : State) : Event → Host.Outcome State Fault Refusal
  | .engine => engineTurn s
  | .host access => hostAccess s access
  | .engineAndStatusWrite v => engineTurn (s.writeRegister .status v)
  | .reset => .next s.hardReset
  | .powerOn => .next s.powerCycle

/-- The next event of `inputs`; when none is left, the engine's turn (70_reset_and_hazards.md R360: an enabled engine step
is eventually taken; log 1). -/
def nextEvent (s : State) : Host.Outcome State Fault Refusal :=
  match s.inputs with
  | [] => engineTurn s
  | e :: rest => happen { s with inputs := rest } e

/-- The word `w`, of `nbits` bits, as the pending command: an accepted `CMD` write (10_state.md R44) after which the engine
has the very next turn. -/
def State.placeCommand (s : State) (nbits w : Nat) : State :=
  { s.accept (BitVec.ofNat 32 (w % 2 ^ nbits)) with
    inputs := match s.inputs with
      | [] => []
      | e :: rest => .engine :: e :: rest }

end Sys2Proof.Machine
end

