-- ==== Sys2Proof/Machine/HostProgram.lean ====
section
/-! DEFINITION. The host's assembler notation and its pseudo-instructions as lists of events (30_encoding.md R118, R119). -/

namespace Sys2Proof.Machine

/-- The forms of 30_encoding.md R118. -/
inductive HostOp where
  | wr (r : Register) (v : Word)
  | rd (r : Register)
  | wrb (a : Nat) (v : Byte)
  | wrh (a : Nat) (v : BitVec 16)
  | wrw (a : Nat) (v : Word)
  | rdb (a : Nat)
  | rdh (a : Nat)
  | rdw (a : Nat)
  /-- the issue of a command by its name: a write of its word to `CMD` -/
  | issue (i : Instr)
  deriving DecidableEq, Repr

/-- The host address of a register (20_memory.md R83, R84). -/
def registerAddress (p : Params) (r : Register) : Nat := p.windowBase + r.offset

/-- The host address of a byte of the data RAM (20_memory.md R83, R84). -/
def ramAddress (p : Params) (a : Nat) : Nat := p.windowBase + (ramOffset + a)

/-- The host access of a form (30_encoding.md R118). -/
def HostOp.access (p : Params) : HostOp → HostAccess
  | .wr r v => .write (registerAddress p r) .word v
  | .rd r => .read (registerAddress p r) .word
  | .wrb a v => .write (ramAddress p a) .byte (v.setWidth 32)
  | .wrh a v => .write (ramAddress p a) .half (v.setWidth 32)
  | .wrw a v => .write (ramAddress p a) .word v
  | .rdb a => .read (ramAddress p a) .byte
  | .rdh a => .read (ramAddress p a) .half
  | .rdw a => .read (ramAddress p a) .word
  | .issue i => .write (registerAddress p .cmd) .word (encode i)

/-- The pseudo-instructions of 30_encoding.md R119. -/
inductive PseudoOp where
  | op (o : HostOp)
  | rc4Enc (slot : SlotIx)
  | rc4Dec (slot : SlotIx)
  /-- `WAIT`: `polls` reads of `STATUS` while the command is pending, its completion, and the read that sees `BUSY` = 0 -/
  | wait (polls : Nat)
  | run (i : Instr) (polls : Nat)
  | src (a n : Word)
  | dst (a : Word)
  | time (t : DWord)
  | wrbytes (a : Nat) (bytes : List Byte)
  | ack
  deriving DecidableEq, Repr

/-- The events of a form. -/
def HostOp.events (p : Params) (o : HostOp) : List Event := [.host (o.access p)]

/-- The byte writes of `WRBYTES`, one for each byte in order (30_encoding.md R119). -/
def byteWrites : Nat → List Byte → List HostOp
  | _, [] => []
  | a, b :: bs => .wrb a b :: byteWrites (a + 1) bs

/-- The events of `WAIT` (30_encoding.md R119). How many polls read `BUSY` = 1 is not fixed
(70_reset_and_hazards.md R360, log 10). -/
def waitEvents (p : Params) (polls : Nat) : List Event :=
  (List.replicate polls (HostOp.rd .status)).flatMap (HostOp.events p) ++ [.engine] ++ HostOp.events p (.rd .status)

/-- The expansion of a pseudo-instruction (30_encoding.md R119). -/
def PseudoOp.events (p : Params) : PseudoOp → List Event
  | .op o => o.events p
  | .rc4Enc slot => (HostOp.issue (.rc4 slot)).events p
  | .rc4Dec slot => (HostOp.issue (.rc4 slot)).events p
  | .wait polls => waitEvents p polls
  | .run i polls => (HostOp.issue i).events p ++ waitEvents p polls
  | .src a n => (HostOp.wr .srcAddr a).events p ++ (HostOp.wr .srcLen n).events p
  | .dst a => (HostOp.wr .dstAddr a).events p
  | .time t => (HostOp.wr .timeLo (t.setWidth 32)).events p ++ (HostOp.wr .timeHi ((t >>> 32).setWidth 32)).events p
  | .wrbytes a bytes => (byteWrites a bytes).flatMap (HostOp.events p)
  | .ack => (HostOp.wr .status 0x0000000E).events p

/-- The events of a host program. -/
def programEvents (p : Params) (program : List PseudoOp) : List Event := program.flatMap (PseudoOp.events p)

end Sys2Proof.Machine
end

