-- ==== Sys2Proof/Safety.lean ====
section
/-! DEFINITION. What claims call a good state and a safe run. -/

namespace Sys2Proof.Machine

/-- A key slot as 10_state.md R48 has it: 256 bytes; all zero when empty; zero from byte 128 on when XTEA. -/
abbrev KeySlot.wf (k : KeySlot) : Prop :=
  k.key.length = 256 ∧ (k.kind = .empty → k.key = zeros 256) ∧
    (k.kind = .xtea → k.key.drop 128 = zeros 128)

/-- The TOTP result registers as 10_state.md R43 has them: bit 31 of the codes 0, the seconds at most 60, and 1 to 60 once
an OTP is present; MATCH only with PRESENT. -/
abbrev TotpRegs.wf (t : TotpRegs) : Prop :=
  t.code.toNat < 2 ^ 31 ∧ t.last.toNat < 2 ^ 31 ∧ t.secs.toNat ≤ 60 ∧ (t.present = true → 1 ≤ t.secs.toNat) ∧
    (t.matched = true → t.present = true)

/-- A good state: legal parameters, the data RAM in canonical form and inside the block, one well-formed slot for each
index, an error code that can be reported, a result length the data RAM can hold. -/
abbrev State.wf (s : State) : Prop :=
  s.params.legal ∧ s.ram.wf ∧ s.ram.within s.params.bufBytes ∧ s.slots.length = s.params.numSlots ∧
    (∀ k ∈ s.slots, k.wf) ∧ s.errcode.toNat ≤ 7 ∧ s.resultLen.toNat ≤ s.params.bufBytes ∧ s.totp.wf

/-- A run of `k` steps that meets no model fault (60_exceptions.md R318). -/
def SafeRun (k : Nat) (s : State) : Prop := ∃ t, Sys2Proof.core.run k s = .next t

end Sys2Proof.Machine
end

