-- ==== Sys2Proof/Certificates/Slice0/Obligations.lean ====
section
/-! DEFINITION. The statements about the block, for the provers. Each says in its docstring which rule of spec/ it states or rests on. -/

open Sys2Proof Sys2Proof.Machine

/-! ## Encoding -/

/-- 30_encoding.md R115: decoding the word of a command that the block has gives the command back, with every field at every
value the encoding admits. -/
def Obligations.DecodeOfEncode : Prop :=
  ∀ (numSlots : Nat) (i : Instr), i.wf numSlots = true → decode numSlots (encode i) = .ok i

/-- 30_encoding.md R115, R116: a word that decodes to a command is that command's word, and the block has the command. -/
def Obligations.EncodeOfDecode : Prop :=
  ∀ (numSlots : Nat) (w : Word) (i : Instr), decode numSlots w = .ok i → encode i = w ∧ i.wf numSlots = true

/-- 30_encoding.md R114: a word is the command of a row iff it matches under the row's mask and the further condition holds;
no word matches two rows. -/
def Obligations.DecodeAgreesWithMatchTable : Prop :=
  ∀ (numSlots : Nat) (w : Word),
    (∀ r ∈ matchTable, r.holds numSlots w = true ↔ ∃ i, decode numSlots w = .ok i ∧ i.mnemonic = r.mnemonic) ∧
    (∀ r ∈ matchTable, ∀ r' ∈ matchTable, r.holds numSlots w = true → r'.holds numSlots w = true → r = r')

/-- 30_encoding.md R113, R116, on words of 95_test_vectors.md L2.6, for four key slots: one word of each family, and five
illegal words. -/
def Obligations.SampleWordsDecode : Prop :=
  decode 4 0x00000000 = .ok .nop ∧ decode 4 0x00002302 = .ok (.deriveKey 3 .xtea) ∧
    decode 4 0x00000110 = .ok (.rc4 1) ∧ decode 4 0x00000123 = .ok (.xteaEcbDec 1) ∧
    decode 4 0x00004031 = .ok (.totpValidate true) ∧
    decode 4 0x00003302 = .error .badKind ∧ decode 4 0x00000410 = .error .slotOutOfRange ∧
    decode 4 0x00000024 = .error .reservedOp ∧ decode 4 0x00008000 = .error .reservedBits ∧
    decode 4 0x00004030 = .error .unusedField

/-! ## Steps -/

/-- 30_encoding.md R121: a step of a busy block whose next event is the engine's turn, or that has no event left, is exec of
the decoded command, on the state from which that event is taken. -/
def Obligations.StepRunsDecodedCommand : Prop :=
  ∀ (s : State) (i : Instr), s.status.busy = true → decode s.params.numSlots s.latch.cmd = .ok i →
    (s.inputs = [] → step s = exec i s) ∧
    (∀ rest, s.inputs = .engine :: rest → step s = exec i { s with inputs := rest })

/-- 30_encoding.md R116, R120: performing an illegal word completes with `ILLEGAL_COMMAND` and changes nothing else. -/
def Obligations.IllegalWordCompletesWithError : Prop :=
  ∀ (s : State) (e : Illegal), s.status.busy = true → decode s.params.numSlots s.latch.cmd = .error e →
    perform s = .next { s with
      resultLen := 0
      errcode := 1
      status := { s.status with busy := false, done := true, err := true } }

/-- The model's choice (log 1): a step of an idle block with no event left changes nothing. No rule of the spec speaks of such a
step; 30_encoding.md R121 says only that the engine is not enabled while `BUSY` = 0. -/
def Obligations.IdleBlockStays : Prop :=
  ∀ s : State, s.status.busy = false → s.inputs = [] → step s = .next s

/-! ## Results of the commands -/

/-- 45_control.md R290: `NOP` completes and does nothing else. -/
def Obligations.NopResult : Prop :=
  ∀ s : State, exec .nop s = .next { s with
    resultLen := 0
    errcode := 0
    status := { s.status with busy := false, done := true } }

/-- 41_key_derivation.md R184: `DERIVE` on valid ranges stores the stretched password at the destination, from the password
as read before anything is stored. -/
def Obligations.DeriveResult : Prop :=
  ∀ (s : State) (password : List Byte),
    s.latch.srcAddr.toNat + s.latch.srcLen.toNat ≤ s.params.bufBytes →
    s.latch.dstAddr.toNat + s.latch.outLen.toNat ≤ s.params.bufBytes →
    s.ram.readBytes s.latch.srcAddr.toNat s.latch.srcLen.toNat = some password →
    exec .derive s = .next { s with
      ram := s.ram.writeBytes s.latch.dstAddr.toNat
        (pbkdf2 password password.reverse s.params.pbkdfIter s.latch.outLen.toNat)
      resultLen := s.latch.outLen
      errcode := 0
      status := { s.status with busy := false, done := true } }

/-- 41_key_derivation.md R186: `DERIVE_KEY` fills the named slot: 256 stretched bytes for RC4; 128 and then 128 zero bytes for
XTEA. -/
def Obligations.DeriveKeyResult : Prop :=
  ∀ (s : State) (slot : SlotIx) (password : List Byte),
    s.latch.srcAddr.toNat + s.latch.srcLen.toNat ≤ s.params.bufBytes →
    s.ram.readBytes s.latch.srcAddr.toNat s.latch.srcLen.toNat = some password →
    exec (.deriveKey slot .rc4) s = .next { s with
      slots := s.slots.set slot.val
        { kind := .rc4, key := pbkdf2 password password.reverse s.params.pbkdfIter 256 }
      resultLen := 0
      errcode := 0
      status := { s.status with busy := false, done := true } } ∧
    exec (.deriveKey slot .xtea) s = .next { s with
      slots := s.slots.set slot.val
        { kind := .xtea, key := pbkdf2 password password.reverse s.params.pbkdfIter 128 ++ zeros 128 }
      resultLen := 0
      errcode := 0
      status := { s.status with busy := false, done := true } }

/-- 41_key_derivation.md R188: `LOAD_KEY` of exactly `KeyLen(kind)` bytes fills the named slot. -/
def Obligations.LoadKeyResult : Prop :=
  ∀ (s : State) (slot : SlotIx) (key : List Byte),
    s.latch.srcAddr.toNat + s.latch.srcLen.toNat ≤ s.params.bufBytes →
    s.ram.readBytes s.latch.srcAddr.toNat s.latch.srcLen.toNat = some key →
    (s.latch.srcLen = 256 → exec (.loadKey slot .rc4) s = .next { s with
      slots := s.slots.set slot.val { kind := .rc4, key := key }
      resultLen := 0
      errcode := 0
      status := { s.status with busy := false, done := true } }) ∧
    (s.latch.srcLen = 128 → exec (.loadKey slot .xtea) s = .next { s with
      slots := s.slots.set slot.val { kind := .xtea, key := key ++ zeros 128 }
      resultLen := 0
      errcode := 0
      status := { s.status with busy := false, done := true } })

/-- 41_key_derivation.md R188: the errors of `LOAD_KEY` after its range check; the slot keeps its kind and key. -/
def Obligations.LoadKeyLengthErrors : Prop :=
  ∀ (s : State) (slot : SlotIx),
    s.latch.srcAddr.toNat + s.latch.srcLen.toNat ≤ s.params.bufBytes →
    (s.latch.srcLen = 0 → exec (.loadKey slot .rc4) s = .next { s with
      resultLen := 0
      errcode := 4
      status := { s.status with busy := false, done := true, err := true } }) ∧
    (s.latch.srcLen ≠ 0 → s.latch.srcLen ≠ 256 → exec (.loadKey slot .rc4) s = .next { s with
      resultLen := 0
      errcode := 2
      status := { s.status with busy := false, done := true, err := true } }) ∧
    (s.latch.srcLen ≠ 128 → exec (.loadKey slot .xtea) s = .next { s with
      resultLen := 0
      errcode := 2
      status := { s.status with busy := false, done := true, err := true } })

/-- 41_key_derivation.md R190: `CLEAR_KEY` empties the named slot. -/
def Obligations.ClearKeyResult : Prop :=
  ∀ (s : State) (slot : SlotIx), exec (.clearKey slot) s = .next { s with
    slots := s.slots.set slot.val { kind := .empty, key := zeros 256 }
    resultLen := 0
    errcode := 0
    status := { s.status with busy := false, done := true } }

/-- 42_rc4.md R214: `RC4` with an RC4 slot on valid ranges stores the source xored with the keystream. -/
def Obligations.Rc4Result : Prop :=
  ∀ (s : State) (slot : SlotIx) (x : List Byte), (s.slot slot).kind = .rc4 →
    s.latch.srcAddr.toNat + s.latch.srcLen.toNat ≤ s.params.bufBytes →
    s.latch.dstAddr.toNat + s.latch.srcLen.toNat ≤ s.params.bufBytes →
    s.ram.readBytes s.latch.srcAddr.toNat s.latch.srcLen.toNat = some x →
    exec (.rc4 slot) s = .next { s with
      ram := s.ram.writeBytes s.latch.dstAddr.toNat
        (List.zipWith (· ^^^ ·) x (keystream s.latch.srcLen.toNat 0 0 (ksa (s.slot slot).key)))
      resultLen := s.latch.srcLen
      errcode := 0
      status := { s.status with busy := false, done := true } }

/-- 43_xtea.md R236: `XTEA_ENC` with an XTEA slot on valid ranges stores the encrypted frame. -/
def Obligations.XteaEncResult : Prop :=
  ∀ (s : State) (slot : SlotIx) (x : List Byte), (s.slot slot).kind = .xtea →
    s.latch.srcAddr.toNat + s.latch.srcLen.toNat ≤ s.params.bufBytes →
    s.latch.dstAddr.toNat + 8 * ((s.latch.srcLen.toNat + 4 + 7) / 8) ≤ s.params.bufBytes →
    s.ram.readBytes s.latch.srcAddr.toNat s.latch.srcLen.toNat = some x →
    exec (.xteaEnc slot) s = .next { s with
      ram := s.ram.writeBytes s.latch.dstAddr.toNat (ecbEnc (subkeys (s.slot slot).key) (frame x))
      resultLen := BitVec.ofNat 32 (8 * ((s.latch.srcLen.toNat + 4 + 7) / 8))
      errcode := 0
      status := { s.status with busy := false, done := true } }

/-- 43_xtea.md R238, R235: `XTEA_DEC` of whole blocks whose decrypted prefix does not exceed the bytes after it stores that
many bytes; a larger prefix is `MALFORMED_CIPHERTEXT`; a destination they do not fit is `RANGE`. -/
def Obligations.XteaDecResult : Prop :=
  ∀ (s : State) (slot : SlotIx) (c : List Byte), (s.slot slot).kind = .xtea →
    s.latch.srcAddr.toNat + s.latch.srcLen.toNat ≤ s.params.bufBytes →
    s.latch.srcLen.toNat % 8 = 0 → 8 ≤ s.latch.srcLen.toNat →
    s.ram.readBytes s.latch.srcAddr.toNat s.latch.srcLen.toNat = some c →
    exec (.xteaDec slot) s =
      if s.latch.srcLen.toNat - 4 < (le32 (ecbDec (subkeys (s.slot slot).key) c)).toNat then
        .next { s with
          resultLen := 0
          errcode := 3
          status := { s.status with busy := false, done := true, err := true } }
      else if s.params.bufBytes < s.latch.dstAddr.toNat + (le32 (ecbDec (subkeys (s.slot slot).key) c)).toNat then
        .next { s with
          resultLen := 0
          errcode := 5
          status := { s.status with busy := false, done := true, err := true } }
      else
        .next { s with
          ram := s.ram.writeBytes s.latch.dstAddr.toNat
            (((ecbDec (subkeys (s.slot slot).key) c).drop 4).take (le32 (ecbDec (subkeys (s.slot slot).key) c)).toNat)
          resultLen := le32 (ecbDec (subkeys (s.slot slot).key) c)
          errcode := 0
          status := { s.status with busy := false, done := true } }

/-- 43_xtea.md R240, R242: the unframed commands on whole blocks and valid ranges store the blocks, each encrypted or each
decrypted. -/
def Obligations.XteaEcbResult : Prop :=
  ∀ (s : State) (slot : SlotIx) (d : List Byte), (s.slot slot).kind = .xtea →
    s.latch.srcAddr.toNat + s.latch.srcLen.toNat ≤ s.params.bufBytes →
    s.latch.srcLen.toNat % 8 = 0 →
    s.latch.dstAddr.toNat + s.latch.srcLen.toNat ≤ s.params.bufBytes →
    s.ram.readBytes s.latch.srcAddr.toNat s.latch.srcLen.toNat = some d →
    exec (.xteaEcbEnc slot) s = .next { s with
      ram := s.ram.writeBytes s.latch.dstAddr.toNat (ecbEnc (subkeys (s.slot slot).key) d)
      resultLen := s.latch.srcLen
      errcode := 0
      status := { s.status with busy := false, done := true } } ∧
    exec (.xteaEcbDec slot) s = .next { s with
      ram := s.ram.writeBytes s.latch.dstAddr.toNat (ecbDec (subkeys (s.slot slot).key) d)
      resultLen := s.latch.srcLen
      errcode := 0
      status := { s.status with busy := false, done := true } }

/-- 44_totp.md R266: `TOTP_GEN` at a time of at least 60 on a valid source range writes the TOTP result registers. -/
def Obligations.TotpGenResult : Prop :=
  ∀ (s : State) (seed : List Byte),
    s.latch.srcAddr.toNat + s.latch.srcLen.toNat ≤ s.params.bufBytes →
    60 ≤ s.latch.time.toNat →
    s.ram.readBytes s.latch.srcAddr.toNat s.latch.srcLen.toNat = some seed →
    exec .totpGen s = .next { s with
      totp :=
        { code := truncateDigest
            (hmacSha256 (tsText s.params.ts (s.latch.time.toNat - s.latch.time.toNat % 60)) seed)
          last := truncateDigest
            (hmacSha256 (tsText s.params.ts (s.latch.time.toNat - s.latch.time.toNat % 60 - 60)) seed)
          secs := BitVec.ofNat 32 (60 - s.latch.time.toNat % 60)
          present := true
          matched := false }
      resultLen := 0
      errcode := 0
      status := { s.status with busy := false, done := true } }

/-- 44_totp.md R268: `TOTP_VALIDATE` with an OTP present writes `MATCH`; with none it is `NO_OTP`. -/
def Obligations.TotpValidateResult : Prop :=
  ∀ (s : State) (allowLast : Bool),
    exec (.totpValidate allowLast) s =
      if s.totp.present = true then
        .next { s with
          totp := { s.totp with
            matched := decide (s.latch.totpCand = s.totp.code ∨
              (allowLast = true ∧ s.latch.totpCand = s.totp.last)) }
          resultLen := 0
          errcode := 0
          status := { s.status with busy := false, done := true } }
      else
        .next { s with
          resultLen := 0
          errcode := 7
          status := { s.status with busy := false, done := true, err := true } }

/-! ## Errors and faults of the commands -/

/-- 41_key_derivation.md R192: a cipher command on a slot that is empty or of the other kind is `KEY_NOT_LOADED`, whatever its
ranges and its data are. -/
def Obligations.CipherNeedsItsKeyKind : Prop :=
  ∀ (s : State) (slot : SlotIx) (i : Instr),
    (i = .rc4 slot ∧ (s.slot slot).kind ≠ .rc4) ∨
      ((i = .xteaEnc slot ∨ i = .xteaDec slot ∨ i = .xteaEcbEnc slot ∨ i = .xteaEcbDec slot) ∧
        (s.slot slot).kind ≠ .xtea) →
    exec i s = .next { s with
      resultLen := 0
      errcode := 6
      status := { s.status with busy := false, done := true, err := true } }

/-- 20_memory.md R90, 60_exceptions.md R303: an invalid source range is `RANGE`, before any length or content is looked at. -/
def Obligations.InvalidSourceIsRangeError : Prop :=
  ∀ (s : State) (slot : SlotIx) (kind : KeyKind) (i : Instr),
    s.params.bufBytes < s.latch.srcAddr.toNat + s.latch.srcLen.toNat →
    (i = .derive ∨ i = .deriveKey slot kind ∨ i = .loadKey slot kind ∨ i = .totpGen) ∨
      (i = .rc4 slot ∧ (s.slot slot).kind = .rc4) ∨
      ((i = .xteaEnc slot ∨ i = .xteaDec slot ∨ i = .xteaEcbEnc slot ∨ i = .xteaEcbDec slot) ∧
        (s.slot slot).kind = .xtea) →
    exec i s = .next { s with
      resultLen := 0
      errcode := 5
      status := { s.status with busy := false, done := true, err := true } }

/-- 20_memory.md R90, 60_exceptions.md R303: with a valid source range, an invalid destination range whose length is known
before reading is `RANGE`, and so is a time before the second window. -/
def Obligations.InvalidDestinationIsRangeError : Prop :=
  ∀ (s : State) (slot : SlotIx) (i : Instr),
    s.latch.srcAddr.toNat + s.latch.srcLen.toNat ≤ s.params.bufBytes →
    (i = .derive ∧ s.params.bufBytes < s.latch.dstAddr.toNat + s.latch.outLen.toNat) ∨
      (i = .rc4 slot ∧ (s.slot slot).kind = .rc4 ∧
        s.params.bufBytes < s.latch.dstAddr.toNat + s.latch.srcLen.toNat) ∨
      (i = .xteaEnc slot ∧ (s.slot slot).kind = .xtea ∧
        s.params.bufBytes < s.latch.dstAddr.toNat + 8 * ((s.latch.srcLen.toNat + 4 + 7) / 8)) ∨
      ((i = .xteaEcbEnc slot ∨ i = .xteaEcbDec slot) ∧ (s.slot slot).kind = .xtea ∧ s.latch.srcLen.toNat % 8 = 0 ∧
        s.params.bufBytes < s.latch.dstAddr.toNat + s.latch.srcLen.toNat) ∨
      (i = .totpGen ∧ s.latch.time.toNat < 60) →
    exec i s = .next { s with
      resultLen := 0
      errcode := 5
      status := { s.status with busy := false, done := true, err := true } }

/-- 43_xtea.md R238, R240, R242: a length that is no whole number of blocks is `MALFORMED_CIPHERTEXT`, and for `XTEA_DEC` so is
a length of 0. -/
def Obligations.BrokenBlocksAreMalformed : Prop :=
  ∀ (s : State) (slot : SlotIx) (i : Instr), (s.slot slot).kind = .xtea →
    s.latch.srcAddr.toNat + s.latch.srcLen.toNat ≤ s.params.bufBytes →
    ((i = .xteaDec slot ∨ i = .xteaEcbEnc slot ∨ i = .xteaEcbDec slot) ∧ s.latch.srcLen.toNat % 8 ≠ 0) ∨
      (i = .xteaDec slot ∧ s.latch.srcLen.toNat = 0) →
    exec i s = .next { s with
      resultLen := 0
      errcode := 3
      status := { s.status with busy := false, done := true, err := true } }

/-- 20_memory.md R93: `exec` faults exactly with `UninitRead`, and only where some source byte has never been written; it never
refuses. -/
def Obligations.OnlyUnwrittenSourceStopsACommand : Prop :=
  ∀ (s : State) (i : Instr),
    (∃ t, exec i s = .next t) ∨
      (exec i s = .fault .uninitRead ∧
        ∃ k, k < s.latch.srcLen.toNat ∧ s.ram.read (s.latch.srcAddr.toNat + k) = none)

/-- 60_exceptions.md R306: an error discards the command's writes: the state after it is the state before but for `ERRCODE`,
`RESULT_LEN`, `BUSY`, `DONE` and `ERR`. -/
def Obligations.ErrorCompletionIsPrecise : Prop :=
  ∀ (s t : State), s.status.busy = true → perform s = .next t → t.errcode ≠ 0 →
    t = { s with
      resultLen := 0
      errcode := t.errcode
      status := { s.status with busy := false, done := true, err := true } }

/-! ## Frames -/

/-- 30_encoding.md R121, 10_state.md R31, R33: what no command changes, and what only the commands of one family change. -/
def Obligations.CommandFrame : Prop :=
  ∀ (i : Instr) (s t : State), exec i s = .next t →
    t.params = s.params ∧ t.operands = s.operands ∧ t.cmd = s.cmd ∧ t.latch = s.latch ∧ t.ctrl = s.ctrl ∧
    t.inputs = s.inputs ∧ t.reply = s.reply ∧
    t.status = { busy := false, done := true, err := s.status.err || decide (t.errcode ≠ 0),
                 overrun := s.status.overrun } ∧
    ((∀ slot kind, i ≠ .deriveKey slot kind ∧ i ≠ .loadKey slot kind ∧ i ≠ .clearKey slot) → t.slots = s.slots) ∧
    ((∀ b, i ≠ .totpGen ∧ i ≠ .totpValidate b) → t.totp = s.totp) ∧
    ((∀ slot, i ≠ .derive ∧ i ≠ .rc4 slot ∧ i ≠ .xteaEnc slot ∧ i ≠ .xteaDec slot ∧ i ≠ .xteaEcbEnc slot ∧
      i ≠ .xteaEcbDec slot) → t.ram = s.ram)

/-- 20_memory.md R91, 10_state.md R42: a command changes no byte of the data RAM outside the `RESULT_LEN` bytes at its
destination address, and those bytes are written, lie in the data RAM and are within the nominal destination range
(70_reset_and_hazards.md R352). -/
def Obligations.CommandMemoryFrame : Prop :=
  ∀ (i : Instr) (s t : State), s.params.legal → exec i s = .next t →
    (∀ x, (x < s.latch.dstAddr.toNat ∨ s.latch.dstAddr.toNat + t.resultLen.toNat ≤ x) → t.ram.read x = s.ram.read x) ∧
    (∀ x, s.latch.dstAddr.toNat ≤ x → x < s.latch.dstAddr.toNat + t.resultLen.toNat → t.ram.read x ≠ none) ∧
    s.latch.dstAddr.toNat + t.resultLen.toNat ≤ max s.params.bufBytes s.latch.dstAddr.toNat ∧
    t.resultLen.toNat ≤ nominalLen s.latch i

/-- 10_state.md R49: no command writes a slot that it does not name. -/
def Obligations.UnnamedSlotNotWritten : Prop :=
  ∀ (i : Instr) (s t : State) (k : SlotIx), exec i s = .next t → i.slot? ≠ some k →
    t.slots.length = s.slots.length ∧ t.slots[k.val]? = s.slots[k.val]?

/-- 10_state.md R49: no command reads a slot that it does not name: with any other contents there, it completes alike. -/
def Obligations.UnnamedSlotNotRead : Prop :=
  ∀ (i : Instr) (s t : State) (other : List KeySlot), other.length = s.slots.length →
    (∀ k : SlotIx, i.slot? = some k → other[k.val]? = s.slots[k.val]?) → exec i s = .next t →
    ∃ t', exec i { s with slots := other } = .next t' ∧ t' = { t with slots := t'.slots } ∧
      (∀ k : SlotIx, i.slot? = some k → t'.slots[k.val]? = t.slots[k.val]?)

/-! ## The algorithms -/

/-- 43_xtea.md R232: the block functions undo each other, for every key and block. -/
def Obligations.BlockFunctionsInverse : Prop :=
  ∀ (key : List Word) (v : Word × Word), decBlock key (encBlock key v) = v ∧ encBlock key (decBlock key v) = v

/-- 42_rc4.md R210: the key schedule gives a permutation of the bytes 0 to 255, and a key and its 256-byte cyclic repetition
give the same one. -/
def Obligations.KeyScheduleIsPermutation : Prop :=
  ∀ key : List Byte, (ksa key).Perm ((List.range 256).map (BitVec.ofNat 8)) ∧
    (key ≠ [] → ksa ((List.range 256).map fun i => key.getD (i % key.length) 0) = ksa key)

/-- 40_primitives.md R147, R145: a shorter derivation is a prefix of a longer one, and a derivation has the length asked
for. -/
def Obligations.StretchPrefix : Prop :=
  ∀ (iterations : Nat) (password : List Byte) (m n : Nat), m ≤ n →
    stretch iterations password m = (stretch iterations password n).take m ∧
    (stretch iterations password n).length = n

/-- 44_totp.md R264: the truncation is the masked big-endian word at the offset, so bit 31 of a code is 0. -/
def Obligations.TruncateIsMaskedWord : Prop :=
  ∀ h : List Byte, h.length = 32 →
    truncateDigest h = be32 (h.drop (h.getD 31 0 &&& 0x0F).toNat) &&& 0x7FFFFFFF ∧
    (truncateDigest h).toNat ≤ 2147483647

/-- 44_totp.md R270: two generations from the same seed bytes, wherever they stand, at two times of one window that 44_totp.md
R266 allows, complete without error and give the same codes. Both blocks have one `TsText` (00_scope.md R8). -/
def Obligations.SameWindowSameCodes : Prop :=
  ∀ (s s' : State) (seed : List Byte), s'.params.ts = s.params.ts →
    s.latch.srcAddr.toNat + s.latch.srcLen.toNat ≤ s.params.bufBytes →
    s'.latch.srcAddr.toNat + s'.latch.srcLen.toNat ≤ s'.params.bufBytes →
    s.ram.readBytes s.latch.srcAddr.toNat s.latch.srcLen.toNat = some seed →
    s'.ram.readBytes s'.latch.srcAddr.toNat s'.latch.srcLen.toNat = some seed →
    60 ≤ s.latch.time.toNat → s.latch.time.toNat / 60 = s'.latch.time.toNat / 60 →
    ∃ t t', exec .totpGen s = .next t ∧ exec .totpGen s' = .next t' ∧ t.errcode = 0 ∧ t'.errcode = 0 ∧
      t'.totp.code = t.totp.code ∧ t'.totp.last = t.totp.last

/-- 43_xtea.md R234: the frame's length, its prefix, and that the unframing returns the plaintext, for every plaintext a prefix
can count. -/
def Obligations.UnframeOfFrame : Prop :=
  ∀ x : List Byte, x.length < 2 ^ 32 →
    (frame x).length = 8 * ((x.length + 4 + 7) / 8) ∧ (le32 (frame x)).toNat = x.length ∧ unframe (frame x) = some x

/-! ## Laws over two commands -/

/-- 42_rc4.md R216: `RC4 s` on the result of `RC4 s`, with the same slot, gives the input back. -/
def Obligations.Rc4SelfInverse : Prop :=
  ∀ (s : State) (slot : SlotIx) (x : List Byte), (s.slot slot).kind = .rc4 →
    s.latch.srcAddr.toNat + s.latch.srcLen.toNat ≤ s.params.bufBytes →
    s.latch.dstAddr.toNat + s.latch.srcLen.toNat ≤ s.params.bufBytes →
    s.ram.readBytes s.latch.srcAddr.toNat s.latch.srcLen.toNat = some x →
    ∃ t, exec (.rc4 slot) s = .next t ∧
      ∀ u : State, u.params = s.params → u.slot slot = s.slot slot →
        u.latch.srcAddr = s.latch.dstAddr → u.latch.srcLen = s.latch.srcLen →
        u.latch.dstAddr.toNat + u.latch.srcLen.toNat ≤ u.params.bufBytes →
        u.ram.readBytes s.latch.dstAddr.toNat s.latch.srcLen.toNat =
          t.ram.readBytes s.latch.dstAddr.toNat s.latch.srcLen.toNat →
        ∃ v, exec (.rc4 slot) u = .next v ∧
          v.ram.readBytes u.latch.dstAddr.toNat u.latch.srcLen.toNat = some x ∧ v.resultLen = s.latch.srcLen

/-- 43_xtea.md R244: `XTEA_DEC s` on the output of `XTEA_ENC s` returns the plaintext exactly, with its length. -/
def Obligations.XteaFramedRoundTrip : Prop :=
  ∀ (s : State) (slot : SlotIx) (x : List Byte), s.params.legal → (s.slot slot).kind = .xtea →
    s.latch.srcAddr.toNat + s.latch.srcLen.toNat ≤ s.params.bufBytes →
    s.latch.dstAddr.toNat + framedLen s.latch.srcLen.toNat ≤ s.params.bufBytes →
    s.ram.readBytes s.latch.srcAddr.toNat s.latch.srcLen.toNat = some x →
    ∃ t, exec (.xteaEnc slot) s = .next t ∧
      ∀ u : State, u.params = s.params → u.slot slot = s.slot slot →
        u.latch.srcAddr = s.latch.dstAddr → u.latch.srcLen = t.resultLen →
        u.latch.dstAddr.toNat + s.latch.srcLen.toNat ≤ u.params.bufBytes →
        u.ram.readBytes s.latch.dstAddr.toNat t.resultLen.toNat =
          t.ram.readBytes s.latch.dstAddr.toNat t.resultLen.toNat →
        ∃ v, exec (.xteaDec slot) u = .next v ∧
          v.ram.readBytes u.latch.dstAddr.toNat s.latch.srcLen.toNat = some x ∧
          v.resultLen = s.latch.srcLen ∧ v.errcode = 0

/-- 43_xtea.md R244: the unframed pair satisfies the same law on every whole number of blocks. -/
def Obligations.XteaUnframedRoundTrip : Prop :=
  ∀ (s : State) (slot : SlotIx) (x : List Byte), (s.slot slot).kind = .xtea →
    s.latch.srcAddr.toNat + s.latch.srcLen.toNat ≤ s.params.bufBytes →
    s.latch.srcLen.toNat % 8 = 0 →
    s.latch.dstAddr.toNat + s.latch.srcLen.toNat ≤ s.params.bufBytes →
    s.ram.readBytes s.latch.srcAddr.toNat s.latch.srcLen.toNat = some x →
    ∃ t, exec (.xteaEcbEnc slot) s = .next t ∧
      ∀ u : State, u.params = s.params → u.slot slot = s.slot slot →
        u.latch.srcAddr = s.latch.dstAddr → u.latch.srcLen = s.latch.srcLen →
        u.latch.dstAddr.toNat + u.latch.srcLen.toNat ≤ u.params.bufBytes →
        u.ram.readBytes s.latch.dstAddr.toNat s.latch.srcLen.toNat =
          t.ram.readBytes s.latch.dstAddr.toNat s.latch.srcLen.toNat →
        ∃ v, exec (.xteaEcbDec slot) u = .next v ∧
          v.ram.readBytes u.latch.dstAddr.toNat u.latch.srcLen.toNat = some x ∧ v.resultLen = s.latch.srcLen

/-! ## Registers -/

/-- 10_state.md R36, 20_memory.md R84: a host read of `ID` returns its constant in every state, and a write to it does
nothing. -/
def Obligations.IdIsConstant : Prop :=
  ∀ (s : State) (v : Word),
    hostAccess s (.read s.params.windowBase .word) = .next { s with reply := some 0x41534301 } ∧
    hostAccess s (.write s.params.windowBase .word v) = .next s

/-- 10_state.md R37: the fields of `CONFIG`, and its value with the reference parameters. -/
def Obligations.ConfigFields : Prop :=
  (∀ s : State, s.params.legal →
    (s.readRegister .config).toNat % 256 = s.params.pbkdfIter ∧
    (s.readRegister .config).toNat / 256 % 32 = s.params.numSlots ∧
    (s.readRegister .config).toNat / 8192 % 8 = 0 ∧
    2 ^ ((s.readRegister .config).toNat / 65536 % 32) = s.params.bufBytes ∧
    (s.readRegister .config).toNat / 2097152 = 0) ∧
  State.reset.readRegister .config = 0x0010040A

/-- 10_state.md R35 to R45: what a host read of each offset of the register window returns; a reserved offset reads 0; a read
changes nothing at the block. -/
def Obligations.RegisterReads : Prop :=
  ∀ (s : State) (off : Nat), off < 0x1000 → off % 4 = 0 →
    hostAccess s (.read (s.params.windowBase + off) .word) = .next { s with
      reply := some (
        if off = 0x000 then 0x41534301
        else if off = 0x004 then
          BitVec.ofNat 32 (s.params.pbkdfIter + 2 ^ 8 * s.params.numSlots + 2 ^ 16 * s.params.bufLog2)
        else if off = 0x008 then BitVec.ofNat 32 (2 * s.ctrl.doneIe.toNat + 4 * s.ctrl.errIe.toNat)
        else if off = 0x00C then
          BitVec.ofNat 32 (s.status.busy.toNat + 2 * s.status.done.toNat + 4 * s.status.err.toNat +
            8 * s.status.overrun.toNat)
        else if off = 0x010 then s.errcode.setWidth 32
        else if off = 0x014 then s.cmd
        else if off = 0x018 then s.operands.srcAddr
        else if off = 0x01C then s.operands.srcLen
        else if off = 0x020 then s.operands.dstAddr
        else if off = 0x024 then s.operands.outLen
        else if off = 0x028 then s.resultLen
        else if off = 0x02C then s.operands.timeLo
        else if off = 0x030 then s.operands.timeHi
        else if off = 0x034 then s.operands.totpCand
        else if off = 0x038 then s.totp.code
        else if off = 0x03C then s.totp.last
        else if off = 0x040 then s.totp.secs
        else if off = 0x044 then BitVec.ofNat 32 (s.totp.present.toNat + 2 * s.totp.matched.toNat)
        else if off = 0x048 then s.readRegister .keystat
        else 0) }

/-- 10_state.md R45: two bits of `KEYSTAT` for each slot, 0 for the slots the block does not have. -/
def Obligations.KeystatBits : Prop :=
  ∀ (s : State) (k : SlotIx), s.slots.length ≤ 16 →
    (s.readRegister .keystat).extractLsb' (2 * k.val) 2 =
      match s.slots[k.val]? with
      | none => 0
      | some slot => match slot.kind with
        | .empty => 0
        | .rc4 => 1
        | .xtea => 2

/-- 10_state.md R35, R41, 20_memory.md R89: a host write to an operand register stores the word and nothing else; a write to a
read-only or reserved offset does nothing. -/
def Obligations.RegisterWrites : Prop :=
  ∀ (s : State) (v : Word) (off : Nat), off < 0x1000 → off % 4 = 0 → off ≠ 0x008 → off ≠ 0x00C → off ≠ 0x014 →
    hostAccess s (.write (s.params.windowBase + off) .word v) = .next { s with
      operands :=
        { srcAddr := if off = 0x018 then v else s.operands.srcAddr
          srcLen := if off = 0x01C then v else s.operands.srcLen
          dstAddr := if off = 0x020 then v else s.operands.dstAddr
          outLen := if off = 0x024 then v else s.operands.outLen
          timeLo := if off = 0x02C then v else s.operands.timeLo
          timeHi := if off = 0x030 then v else s.operands.timeHi
          totpCand := if off = 0x034 then v else s.operands.totpCand } }

/-- 10_state.md R38: a write to `CTRL` without `SRST` sets the two enables and nothing else, busy or not. -/
def Obligations.CtrlWrite : Prop :=
  ∀ (s : State) (v : Word), v.getLsbD 0 = false →
    hostAccess s (.write (s.params.windowBase + 0x008) .word v) =
      .next { s with ctrl := { doneIe := v.getLsbD 1, errIe := v.getLsbD 2 } }

/-- 10_state.md R39, 60_exceptions.md R307: a write to `STATUS` clears the bits among DONE, ERR and OVERRUN where it has a 1, and
nothing else; this is how the host acknowledges an error. -/
def Obligations.StatusWriteOneToClear : Prop :=
  ∀ (s : State) (v : Word),
    hostAccess s (.write (s.params.windowBase + 0x00C) .word v) = .next { s with
      status :=
        { busy := s.status.busy
          done := s.status.done && !v.getLsbD 1
          err := s.status.err && !v.getLsbD 2
          overrun := s.status.overrun && !v.getLsbD 3 } }

/-- 10_state.md R44, R46: a `CMD` write is accepted when idle, which loads the latch, sets `BUSY` and clears `DONE`; it is dropped
when busy, which sets `OVERRUN` and nothing else. A read of `CMD` after an accepted write returns the word. -/
def Obligations.CmdWriteAcceptedOrDropped : Prop :=
  ∀ (s : State) (w : Word),
    (s.status.busy = false →
      hostAccess s (.write (s.params.windowBase + 0x014) .word w) = .next { s with
        cmd := w
        latch :=
          { cmd := w
            srcAddr := s.operands.srcAddr
            srcLen := s.operands.srcLen
            dstAddr := s.operands.dstAddr
            outLen := s.operands.outLen
            time := (s.operands.timeHi.setWidth 64 <<< 32) ||| s.operands.timeLo.setWidth 64
            totpCand := s.operands.totpCand }
        status := { s.status with busy := true, done := false } }) ∧
    (s.status.busy = true →
      hostAccess s (.write (s.params.windowBase + 0x014) .word w) =
        .next { s with status := { s.status with overrun := true } })

/-- 60_exceptions.md R310: the interrupt output from the bits of `STATUS` and `CTRL` as software reads them; it is 0 after
reset. -/
def Obligations.InterruptOutput : Prop :=
  (∀ s : State, s.irq =
    ((s.readRegister .status).getLsbD 1 && (s.readRegister .ctrl).getLsbD 1 ||
      (s.readRegister .status).getLsbD 2 && (s.readRegister .ctrl).getLsbD 2)) ∧
  (∀ (p : Params) (m : Memory) (l : List Event) (r : Option Word), (State.resetWith p m l r).irq = false)

/-- 60_exceptions.md R304, 10_state.md R39: when a completion and a host write to `STATUS` fall in one step, what the completion
sets stays set. -/
def Obligations.CompletionWinsOverStatusWrite : Prop :=
  ∀ (s t : State) (v : Word) (rest : List Event), s.status.busy = true →
    s.inputs = .engineAndStatusWrite v :: rest → step s = .next t →
    t.status.busy = false ∧ t.status.done = true ∧ (t.errcode ≠ 0 → t.status.err = true) ∧
    t.status.overrun = (s.status.overrun && !v.getLsbD 3)

/-! ## Host accesses to the data RAM -/

/-- 20_memory.md R84, R85, R86: which accesses within the window are a host bus error. -/
def Obligations.BusErrorsOfTheWindow : Prop :=
  ∀ (s : State) (off n : Nat) (width : Width) (v : Word), off < 0x200000 →
    (width = .byte ∧ n = 1 ∨ width = .half ∧ n = 2 ∨ width = .word ∧ n = 4) →
    ¬ (off < 0x1000 ∧ n = 4 ∧ off % 4 = 0) →
    ¬ (0x100000 ≤ off ∧ off < 0x100000 + s.params.bufBytes ∧ off % n = 0) →
    hostAccess s (.read (s.params.windowBase + off) width) = .fault .hostBusError ∧
    hostAccess s (.write (s.params.windowBase + off) width v) = .fault .hostBusError

/-- 20_memory.md R80, R82, R84, R93: host accesses of every width to an idle block's data RAM, at naturally aligned addresses. A
write stores the bytes of the access from the least significant up and no other byte, and a read of the same width returns
them, zero-extended; a read of written bytes returns their little-endian value; a read that meets an unwritten byte is
`UninitRead`. -/
def Obligations.RamAccessIsLittleEndian : Prop :=
  ∀ (s : State) (a n : Nat) (width : Width), s.params.legal → s.status.busy = false →
    (width = .byte ∧ n = 1 ∨ width = .half ∧ n = 2 ∨ width = .word ∧ n = 4) → a < s.params.bufBytes → a % n = 0 →
    (∀ v : Word, ∃ m : Memory,
      hostAccess s (.write (s.params.windowBase + (0x100000 + a)) width v) = .next { s with ram := m } ∧
      (∀ x, m.read x = if a ≤ x ∧ x < a + n then some (v.extractLsb' (8 * (x - a)) 8) else s.ram.read x) ∧
      hostAccess { s with ram := m } (.read (s.params.windowBase + (0x100000 + a)) width) =
        .next { s with ram := m, reply := some (BitVec.ofNat 32 (v.toNat % 2 ^ (8 * n))) }) ∧
    (∀ v : Word, v.toNat < 2 ^ (8 * n) →
      (∀ k, k < n → s.ram.read (a + k) = some (v.extractLsb' (8 * k) 8)) →
      hostAccess s (.read (s.params.windowBase + (0x100000 + a)) width) = .next { s with reply := some v }) ∧
    ((∃ k, k < n ∧ s.ram.read (a + k) = none) →
      hostAccess s (.read (s.params.windowBase + (0x100000 + a)) width) = .fault .uninitRead)

/-- 70_reset_and_hazards.md R351 to R354: which naturally aligned accesses to the data RAM of a busy block are a `HostHazard`: those
with a byte in a protected range. Every other access is as if the block were idle (20_memory.md R80, R93). `len` is the length
of the pending command's nominal destination. The model's readings: the source range counts for every command and for an
illegal word, whose destination is empty (log 8), and a hazard comes before an unwritten byte (log 7). -/
def Obligations.RamAccessWhileBusy : Prop :=
  ∀ (s : State) (len a n : Nat) (width : Width) (v : Word), s.params.legal → s.status.busy = true →
    ((∃ i, decode s.params.numSlots s.latch.cmd = .ok i ∧ len = nominalLen s.latch i) ∨
      ((∃ e, decode s.params.numSlots s.latch.cmd = .error e) ∧ len = 0)) →
    (width = .byte ∧ n = 1 ∨ width = .half ∧ n = 2 ∨ width = .word ∧ n = 4) → a < s.params.bufBytes → a % n = 0 →
    ((∃ k, k < n ∧ s.latch.dstAddr.toNat ≤ a + k ∧ a + k < s.latch.dstAddr.toNat + len) →
      hostAccess s (.read (s.params.windowBase + (0x100000 + a)) width) = .fault .hostHazard ∧
      hostAccess s (.write (s.params.windowBase + (0x100000 + a)) width v) = .fault .hostHazard) ∧
    ((∃ k, k < n ∧ s.latch.srcAddr.toNat ≤ a + k ∧ a + k < s.latch.srcAddr.toNat + s.latch.srcLen.toNat) →
      hostAccess s (.write (s.params.windowBase + (0x100000 + a)) width v) = .fault .hostHazard) ∧
    (¬ (∃ k, k < n ∧ s.latch.dstAddr.toNat ≤ a + k ∧ a + k < s.latch.dstAddr.toNat + len) →
      ((∃ k, k < n ∧ s.ram.read (a + k) = none) →
        hostAccess s (.read (s.params.windowBase + (0x100000 + a)) width) = .fault .uninitRead) ∧
      (v.toNat < 2 ^ (8 * n) → (∀ k, k < n → s.ram.read (a + k) = some (v.extractLsb' (8 * k) 8)) →
        hostAccess s (.read (s.params.windowBase + (0x100000 + a)) width) = .next { s with reply := some v })) ∧
    (¬ (∃ k, k < n ∧ s.latch.dstAddr.toNat ≤ a + k ∧ a + k < s.latch.dstAddr.toNat + len) →
      ¬ (∃ k, k < n ∧ s.latch.srcAddr.toNat ≤ a + k ∧ a + k < s.latch.srcAddr.toNat + s.latch.srcLen.toNat) →
      ∃ m : Memory,
        hostAccess s (.write (s.params.windowBase + (0x100000 + a)) width v) = .next { s with ram := m } ∧
        ∀ x, m.read x = if a ≤ x ∧ x < a + n then some (v.extractLsb' (8 * (x - a)) 8) else s.ram.read x)

/-- 20_memory.md R95, R97, 10_state.md R46, R47: no host access that the hazard rules allow while a command is pending changes
what the command does: it completes with the same result, on the operands as they were at issue. -/
def Obligations.PendingCommandIgnoresTheHost : Prop :=
  ∀ (s s' t : State) (access : HostAccess), s.status.busy = true →
    hostAccess s access = .next s' → s'.status.busy = true → perform s = .next t →
    ∃ t', perform s' = .next t' ∧ t'.slots = t.slots ∧ t'.totp = t.totp ∧ t'.errcode = t.errcode ∧
      t'.resultLen = t.resultLen ∧ (∀ x, s'.ram.read x = s.ram.read x → t'.ram.read x = t.ram.read x)

/-- 10_state.md R50: the host cannot read a key byte by any access. Two blocks that differ only in key bytes answer every
sequence of accesses alike, and still differ only in key bytes after it. -/
def Obligations.KeyBytesAreInvisible : Prop :=
  ∀ (accesses : List HostAccess) (s t : State) (other : List KeySlot),
    other.map KeySlot.kind = s.slots.map KeySlot.kind → s.inputs = accesses.map Event.host →
    Sys2Proof.core.run accesses.length s = .next t →
    ∃ t' : State, Sys2Proof.core.run accesses.length { s with slots := other } = .next t' ∧
      t' = { t with slots := t'.slots } ∧ t'.slots.map KeySlot.kind = t.slots.map KeySlot.kind

/-! ## Reset and invariants -/

/-- 70_reset_and_hazards.md R340: the registers after a reset, as the host reads them, and the slots. -/
def Obligations.ResetValues : Prop :=
  ∀ (p : Params) (m : Memory) (l : List Event) (r : Option Word),
    (∀ reg : Register, (State.resetWith p m l r).readRegister reg =
      if reg = .id then 0x41534301 else if reg = .config then configWord p else 0) ∧
    (State.resetWith p m l r).slots =
      List.replicate p.numSlots { kind := .empty, key := zeros 256 } ∧
    (State.resetWith p m l r).ram = m

/-- 70_reset_and_hazards.md R343: a write of 1 to `CTRL.SRST` is a hardware reset in the same step, busy or not; the other bits of
the write are ignored. -/
def Obligations.SoftResetIsHardwareReset : Prop :=
  ∀ (s : State) (v : Word) (rest : List Event), v.getLsbD 0 = true →
    s.inputs = .host (.write (s.params.windowBase + 0x008) .word v) :: rest →
    ∃ t, step s = .next t ∧ step { s with inputs := .reset :: rest } = .next t ∧
      t.ctrl = { doneIe := false, errIe := false } ∧
      t.status = { busy := false, done := false, err := false, overrun := false }

/-- 70_reset_and_hazards.md R340, R342, R344: the step at the reset input, busy or not: every register as the host reads it, the
interrupt output and the slots are at their reset values, so nothing of a pending command is left; every byte of the data RAM is
kept (R341), but that the nominal destination bytes (R352) of a pending command become unwritten. An illegal word has no
destination (log 8); the events that remain are the model's own list (log 1). Through SoftResetIsHardwareReset the same holds of
`CTRL.SRST`. -/
def Obligations.ResetAbortsPendingCommand : Prop :=
  ∀ (s : State) (rest : List Event), s.inputs = .reset :: rest →
    ∃ t, step s = .next t ∧ t.params = s.params ∧ t.inputs = rest ∧
      (∀ reg : Register, t.readRegister reg =
        if reg = .id then 0x41534301 else if reg = .config then configWord s.params else 0) ∧
      t.irq = false ∧
      t.slots = List.replicate s.params.numSlots { kind := .empty, key := zeros 256 } ∧
      (∀ i, decode s.params.numSlots s.latch.cmd = .ok i → ∀ x, t.ram.read x =
        if s.status.busy = true ∧ s.latch.dstAddr.toNat ≤ x ∧ x < s.latch.dstAddr.toNat + nominalLen s.latch i
        then none else s.ram.read x) ∧
      (∀ e, decode s.params.numSlots s.latch.cmd = .error e → ∀ x, t.ram.read x = s.ram.read x)

/-- 60_exceptions.md R317, 70_reset_and_hazards.md R341, R342: a loss of power leaves every byte of the data RAM unwritten, every
slot empty and every register at its reset value; what is still to happen is the model's own list (log 1). -/
def Obligations.PowerCycleForgetsTheRam : Prop :=
  ∀ (s : State) (rest : List Event), s.inputs = .powerOn :: rest →
    ∃ t, step s = .next t ∧ t.params = s.params ∧ t.inputs = rest ∧ (∀ x, t.ram.read x = none) ∧
      t.slots = List.replicate s.params.numSlots { kind := .empty, key := zeros 256 } ∧
      ∀ reg : Register, t.readRegister reg =
        if reg = .id then 0x41534301 else if reg = .config then configWord s.params else 0

/-- The block after power-on is a good state, for every legal value of the parameters (70_reset_and_hazards.md R340, R341); that
State.reset has R8's reference values is the model's choice (log 2). -/
def Obligations.ResetIsGood : Prop :=
  State.reset.wf ∧
  ∀ (p : Params) (l : List Event) (r : Option Word), p.legal → (State.resetWith p [] l r).wf

/-- Every step keeps a good state good: the parameters (10_state.md R37) and the data RAM's bounds (20_memory.md R91), the slots
(R48), the reportable error codes (60_exceptions.md R300), the ranges of the TOTP registers (10_state.md R43); and the
parameters never change. -/
def Obligations.StepKeepsGoodState : Prop :=
  ∀ s t : State, s.wf → step s = .next t → t.wf ∧ t.params = s.params

/-! ## Host programs -/

/-- 30_encoding.md R118, R119: issuing a command by its name to an idle block and then `WAIT`, with any number of polls, ends with
the command performed and `STATUS` read, whenever the command completes. That `WAIT` is a given number of polls, the engine's
turn and one more poll is the model's choice (log 10), and so is the list of events (log 1). -/
def Obligations.RunPseudoInstruction : Prop :=
  ∀ (s t : State) (i : Instr) (polls : Nat), i.wf s.params.numSlots = true → s.status.busy = false →
    s.inputs = PseudoOp.events s.params (.run i polls) →
    exec i (State.accept { s with inputs := [] } (encode i)) = .next t →
    Sys2Proof.core.run (polls + 3) s = .next { t with reply := some t.status.word }
end

