-- ==== Sys2Proof/Laws/Bytes.lean ====
section
/-! SUPPORT. Lengths of byte sequences, and the integers they stand for. -/

namespace Sys2Proof

@[simp] theorem leBytes_length (n v : Nat) : (leBytes n v).length = n := by
  induction n generalizing v with
  | zero => rfl
  | succ n ih => simp [leBytes, ih]

@[simp] theorem le32bytes_length (v : Word) : (le32bytes v).length = 4 := by simp [le32bytes]

@[simp] theorem be32bytes_length (v : Word) : (be32bytes v).length = 4 := by simp [be32bytes]

@[simp] theorem be64bytes_length (v : Nat) : (be64bytes v).length = 8 := by simp [be64bytes]

@[simp] theorem zeros_length (n : Nat) : (zeros n).length = n := by simp [zeros]

@[simp] theorem xorBytes_length (a b : List Byte) : (xorBytes a b).length = min a.length b.length := by
  simp [xorBytes]

theorem leValue_lt (b : List Byte) : leValue b < 256 ^ b.length := by
  induction b with
  | nil => simp [leValue]
  | cons x xs ih =>
    have := x.isLt
    simp only [leValue, List.length_cons, pow_succ]
    omega

/-- The bytes of an integer stand for it, modulo what fits. -/
theorem leValue_leBytes (n v : Nat) : leValue (leBytes n v) = v % 256 ^ n := by
  induction n generalizing v with
  | zero => simp [leBytes, leValue, Nat.mod_one]
  | succ n ih =>
    simp only [leBytes, leValue, ih, BitVec.toNat_ofNat, pow_succ, show 2 ^ 8 = 256 from rfl]
    rw [mul_comm (256 ^ n) 256, Nat.mod_mul]

/-- One byte of an integer, counted from the least significant. -/
theorem leBytes_getElem? (n v k : Nat) (h : k < n) : (leBytes n v)[k]? = some (BitVec.ofNat 8 (v / 256 ^ k)) := by
  induction n generalizing v k with
  | zero => omega
  | succ n ih =>
    rcases k with _ | k
    · simp [leBytes]
    · rw [leBytes, List.getElem?_cons_succ, ih _ _ (by omega), Nat.div_div_eq_div_mul, pow_succ']

/-- One byte of a word, as its bits. -/
theorem leBytes_getElem?_word (n : Nat) (v : Word) (k : Nat) (h : k < n) :
    (leBytes n v.toNat)[k]? = some (v.extractLsb' (8 * k) 8) := by
  rw [leBytes_getElem? _ _ _ h, Option.some.injEq]
  apply BitVec.eq_of_toNat_eq
  simp [Nat.shiftRight_eq_div_pow, pow_mul]

/-- A byte sequence is the bytes of the integer it stands for. -/
theorem leBytes_leValue (b : List Byte) : leBytes b.length (leValue b) = b := by
  induction b with
  | nil => rfl
  | cons x xs ih =>
    have hx := x.isLt
    have hdiv : (x.toNat + 256 * leValue xs) / 256 = leValue xs := by omega
    simp only [List.length_cons, leBytes, leValue, hdiv, ih, List.cons.injEq, and_true]
    apply BitVec.eq_of_toNat_eq
    simp only [BitVec.toNat_ofNat]
    omega

/-- `LE32` undoes `le32bytes`, whatever follows. -/
theorem le32_le32bytes_append (v : Word) (rest : List Byte) : le32 (le32bytes v ++ rest) = v := by
  have h : (le32bytes v ++ rest).take 4 = le32bytes v := by
    rw [List.take_append_of_le_length (by simp), List.take_of_length_le (by simp)]
  apply BitVec.eq_of_toNat_eq
  have := v.isLt
  rw [le32, h, le32bytes, leValue_leBytes, BitVec.toNat_ofNat]
  omega

@[simp] theorem le32_le32bytes (v : Word) : le32 (le32bytes v) = v := by
  simpa using le32_le32bytes_append v []

/-- `le32bytes` undoes `LE32` on four bytes. -/
theorem le32bytes_le32 (b : List Byte) (h : b.length = 4) : le32bytes (le32 b) = b := by
  have hlt := leValue_lt b
  have htake : b.take 4 = b := List.take_of_length_le (by omega)
  have hn : (le32 b).toNat = leValue b := by
    simp only [le32, htake, BitVec.toNat_ofNat]
    rw [h] at hlt
    exact Nat.mod_eq_of_lt (by omega)
  rw [le32bytes, hn, ← h, leBytes_leValue]

/-! ### Pieces -/

@[simp] theorem pieces_length (k n : Nat) (b : List Byte) : (pieces k n b).length = n := by
  induction n generalizing b with
  | zero => rfl
  | succ n ih => simp [pieces, ih]

@[simp] theorem chunks_length (k : Nat) (b : List Byte) : (chunks k b).length = b.length / k := by simp [chunks]

/-- Every piece of a long enough sequence has the length asked for. -/
theorem pieces_all_length (k n : Nat) (b : List Byte) (h : n * k ≤ b.length) : ∀ p ∈ pieces k n b, p.length = k := by
  induction n generalizing b with
  | zero => simp [pieces]
  | succ n ih =>
    have hs : (n + 1) * k = n * k + k := by ring
    intro p hp
    rcases List.mem_cons.mp hp with rfl | hp
    · rw [List.length_take]
      omega
    · exact ih (b.drop k) (by rw [List.length_drop]; omega) p hp

/-- The pieces of a long enough sequence, joined, are its front. -/
theorem pieces_flatten (k n : Nat) (b : List Byte) : (pieces k n b).flatten = b.take (n * k) := by
  induction n generalizing b with
  | zero => simp [pieces]
  | succ n ih =>
    have hs : (n + 1) * k = k + n * k := by ring
    simp only [pieces, List.flatten_cons, ih, hs, List.take_add]

/-- Cutting joined pieces of `k` bytes gives the pieces back. -/
theorem pieces_of_flatten (k : Nat) (l : List (List Byte)) (h : ∀ p ∈ l, p.length = k) :
    pieces k l.length l.flatten = l := by
  induction l with
  | nil => rfl
  | cons p ps ih =>
    have hp : p.length = k := h p (by simp)
    have hps : ∀ q ∈ ps, q.length = k := fun q hq => h q (by simp [hq])
    have htake : (p ++ ps.flatten).take k = p := by
      rw [List.take_append_of_le_length (by omega), List.take_of_length_le (by omega)]
    have hdrop : (p ++ ps.flatten).drop k = ps.flatten := by
      rw [← hp, List.drop_left]
    simp only [List.length_cons, List.flatten_cons, pieces, htake, hdrop, ih hps]

/-- The length of joined pieces of `k` bytes. -/
theorem flatten_length_of_all (k : Nat) (l : List (List Byte)) (h : ∀ p ∈ l, p.length = k) :
    l.flatten.length = l.length * k := by
  induction l with
  | nil => simp
  | cons p ps ih =>
    have hp : p.length = k := h p (by simp)
    simp only [List.flatten_cons, List.length_append, hp, ih fun q hq => h q (by simp [hq]), List.length_cons]
    ring

/-- A sequence of whole blocks is its blocks, joined. -/
theorem chunks_flatten (k : Nat) (b : List Byte) (h : b.length % k = 0) : (chunks k b).flatten = b := by
  rw [chunks, pieces_flatten, List.take_of_length_le]
  exact (Nat.div_mul_cancel (Nat.dvd_of_mod_eq_zero h)).ge

theorem chunks_all_length (k : Nat) (b : List Byte) : ∀ p ∈ chunks k b, p.length = k :=
  pieces_all_length k _ b (Nat.div_mul_le_self _ _)

end Sys2Proof
end

