-- ==== Sys2Proof/Laws/Cipher.lean ====
section
/-! SUPPORT. The lengths of keystreams, frames and enciphered sequences. -/

namespace Sys2Proof

@[simp] theorem keystream_length (n : Nat) (i j : Byte) (table : List Byte) : (keystream n i j table).length = n := by
  induction n generalizing i j table with
  | zero => rfl
  | succ n ih => simp [keystream, ih]

@[simp] theorem rc4Stream_length (key : List Byte) (n : Nat) : (rc4Stream key n).length = n := by simp [rc4Stream]

@[simp] theorem swapEntries_length (table : List Byte) (i j : Nat) : (swapEntries table i j).length = table.length := by
  simp [swapEntries]

@[simp] theorem identityTable_length : identityTable.length = 256 := by simp [identityTable]

@[simp] theorem halvesBytes_length (v : Word × Word) : (halvesBytes v).length = 8 := by simp [halvesBytes]

/-- Replacing each 8-byte block by 8 bytes keeps the whole blocks' length. -/
theorem flatMap_blocks_length (f : List Byte → List Byte) (hf : ∀ b, (f b).length = 8) (l : List (List Byte)) :
    (l.flatMap f).length = 8 * l.length := by
  induction l with
  | nil => rfl
  | cons b bs ih =>
    simp only [List.flatMap_cons, List.length_append, hf, ih, List.length_cons]
    ring

@[simp] theorem ecbEnc_length (key : List Word) (d : List Byte) : (ecbEnc key d).length = 8 * (d.length / 8) := by
  rw [ecbEnc, flatMap_blocks_length _ (fun _ => halvesBytes_length _), chunks_length]

@[simp] theorem ecbDec_length (key : List Word) (d : List Byte) : (ecbDec key d).length = 8 * (d.length / 8) := by
  rw [ecbDec, flatMap_blocks_length _ (fun _ => halvesBytes_length _), chunks_length]

/-- A frame has the framed length of its plaintext (43_xtea.md R234). -/
theorem frame_length_eq (x : List Byte) : (frame x).length = framedLen x.length := by
  simp only [frame, framedLen, List.length_append, leBytes_length, zeros_length]
  omega

theorem framedLen_mod (n : Nat) : framedLen n % 8 = 0 := by simp [framedLen]

theorem framedLen_bounds (n : Nat) : n + 4 ≤ framedLen n ∧ framedLen n ≤ n + 11 ∧ 8 ≤ framedLen n := by
  simp only [framedLen]
  omega

end Sys2Proof
end

