-- ==== Sys2Proof/Laws/Hash.lean ====
section
/-! SUPPORT. The lengths of digests, of HMACs and of derived bytes, and the range of a truncated digest. -/

namespace Sys2Proof

@[simp] theorem sha1_length (m : List Byte) : (sha1 m).length = 20 := by simp [sha1]

@[simp] theorem sha256_length (m : List Byte) : (sha256 m).length = 32 := by simp [sha256]

@[simp] theorem hmacSha1_length (key msg : List Byte) : (hmacSha1 key msg).length = 20 := by simp [hmacSha1, hmac]

@[simp] theorem hmacSha256_length (key msg : List Byte) : (hmacSha256 key msg).length = 32 := by simp [hmacSha256, hmac]

theorem pbkdf2Turns_length (p : List Byte) (n : Nat) (u t : List Byte) (h : t.length = 20) :
    (pbkdf2Turns p n u t).length = 20 := by
  induction n generalizing u t with
  | zero => exact h
  | succ n ih => exact ih _ _ (by simp [h])

@[simp] theorem pbkdf2Block_length (p s : List Byte) (c i : Nat) : (pbkdf2Block p s c i).length = 20 :=
  pbkdf2Turns_length _ _ _ _ (by simp)

@[simp] theorem pbkdf2Blocks_length (p s : List Byte) (c count i : Nat) :
    (pbkdf2Blocks p s c count i).length = 20 * count := by
  induction count generalizing i with
  | zero => rfl
  | succ n ih =>
    simp only [pbkdf2Blocks, List.length_append, pbkdf2Block_length, ih]
    ring

@[simp] theorem pbkdf2_length (p s : List Byte) (c n : Nat) : (pbkdf2 p s c n).length = n := by
  simp only [pbkdf2, List.length_take, pbkdf2Blocks_length]
  omega

@[simp] theorem stretch_length (c : Nat) (p : List Byte) (n : Nat) : (stretch c p n).length = n := by simp [stretch]

/-- Bit 31 of a code is 0 (44_totp.md R264). -/
theorem truncateDigest_lt (h : List Byte) : (truncateDigest h).toNat < 2 ^ 31 := by
  have hb : ∀ n : Nat, n < 256 → n % 1000000 < 256 := fun n hn => by omega
  simp only [truncateDigest]
  generalize h.getD ((h.getD 31 0 &&& 0x0F).toNat) 0 = b0
  generalize h.getD ((h.getD 31 0 &&& 0x0F).toNat + 1) 0 = b1
  generalize h.getD ((h.getD 31 0 &&& 0x0F).toNat + 2) 0 = b2
  generalize h.getD ((h.getD 31 0 &&& 0x0F).toNat + 3) 0 = b3
  have h0 : (b0 &&& 0x7F).toNat < 2 ^ 7 := by
    rw [BitVec.toNat_and]
    exact lt_of_le_of_lt Nat.and_le_right (by decide)
  have h1 := b1.isLt
  have h2 := b2.isLt
  have h3 : b3.toNat % 1000000 < 2 ^ 8 := hb _ b3.isLt
  generalize (b0 &&& 0x7F).toNat = n0 at *
  generalize b3.toNat % 1000000 = n3 at *
  simp only [BitVec.toNat_or, BitVec.toNat_shiftLeft, BitVec.toNat_ofNat, Nat.shiftLeft_eq]
  refine Nat.or_lt_two_pow (Nat.or_lt_two_pow (Nat.or_lt_two_pow ?_ ?_) ?_) ?_ <;> omega

theorem otp_lt (ts : TsFormat) (seed : List Byte) (t : Nat) : (otp ts seed t).toNat < 2 ^ 31 := truncateDigest_lt _

end Sys2Proof
end

