-- ==== Sys2Proof/Laws/Memory.lean ====
section
/-! SUPPORT. The laws of the data RAM: read after write, the canonical form, and what each operation leaves alone. -/

namespace Sys2Proof.Machine

@[simp] theorem Memory.read_nil (a : Nat) : Memory.read [] a = none := rfl

theorem Memory.read_cons (k : Nat) (b : Byte) (m : Memory) (a : Nat) :
    Memory.read ((k, b) :: m) a = if k = a then some b else Memory.read m a := rfl

/-- A read after a write: the byte written at its address, the old byte elsewhere. -/
theorem Memory.read_write (m : Memory) (a x : Nat) (v : Byte) :
    (m.write a v).read x = if x = a then some v else m.read x := by
  induction m with
  | nil => simp only [Memory.write, Memory.read_cons, Memory.read_nil, eq_comm]
  | cons c m ih =>
    obtain ⟨k, b⟩ := c
    by_cases hx : x = a
    · subst hx
      simp only [Memory.write]
      split_ifs with h1 h2
      · simp [Memory.read_cons]
      · simp [Memory.read_cons]
      · simpa [Memory.read_cons, Ne.symm h2] using ih
    · simp only [Memory.write]
      split_ifs with h1 h2
      · simp [Memory.read_cons, Ne.symm hx]
      · subst h2
        simp [Memory.read_cons, Ne.symm hx]
      · simp only [Memory.read_cons, ih, if_neg hx]

/-- A read after writing bytes in a row. -/
theorem Memory.read_writeBytes (m : Memory) (a : Nat) (bs : List Byte) (x : Nat) :
    (m.writeBytes a bs).read x = if a ≤ x ∧ x < a + bs.length then bs[x - a]? else m.read x := by
  induction bs generalizing m a with
  | nil =>
    have : ¬ (a ≤ x ∧ x < a + 0) := by omega
    simp only [Memory.writeBytes, List.length_nil, if_neg this]
  | cons b bs ih =>
    simp only [Memory.writeBytes, ih, Memory.read_write, List.length_cons]
    by_cases h1 : x = a
    · subst h1
      simp
    · by_cases h2 : a + 1 ≤ x ∧ x < a + 1 + bs.length
      · have h3 : a ≤ x ∧ x < a + (bs.length + 1) := by omega
        have h4 : x - a = (x - (a + 1)) + 1 := by omega
        simp [h2, h3, h4]
      · have h3 : ¬ (a ≤ x ∧ x < a + (bs.length + 1)) := by omega
        rw [if_neg h2, if_neg h3, if_neg h1]

/-- What bytes in a row read as, byte by byte. -/
theorem Memory.readBytes_eq_some (m : Memory) (a n : Nat) (bs : List Byte) :
    m.readBytes a n = some bs ↔ bs.length = n ∧ ∀ k, k < n → m.read (a + k) = bs[k]? := by
  induction n generalizing a bs with
  | zero =>
    cases bs <;> simp [Memory.readBytes]
  | succ n ih =>
    simp only [Memory.readBytes]
    constructor
    · intro h
      split at h
      · rename_i b bs' hb hbs
        obtain rfl := Option.some.inj h
        obtain ⟨hl, hk⟩ := (ih _ _).mp hbs
        refine ⟨by simp [hl], fun k hkn => ?_⟩
        rcases k with _ | k
        · simpa using hb
        · have := hk k (by omega)
          simpa [Nat.add_assoc, Nat.add_comm 1] using this
      · cases h
    · rintro ⟨hl, hk⟩
      rcases bs with _ | ⟨b, bs⟩
      · simp at hl
      · have h0 : m.read a = some b := by simpa using hk 0 (by omega)
        have h1 : m.readBytes (a + 1) n = some bs := by
          refine (ih _ _).mpr ⟨by simpa using hl, fun k hkn => ?_⟩
          have := hk (k + 1) (by omega)
          simpa [Nat.add_assoc, Nat.add_comm 1] using this
        simp [h0, h1]

/-- `MemRead` has a value iff every byte has been written. -/
theorem Memory.readBytes_eq_none (m : Memory) (a n : Nat) :
    m.readBytes a n = none ↔ ∃ k, k < n ∧ m.read (a + k) = none := by
  induction n generalizing a with
  | zero => simp [Memory.readBytes]
  | succ n ih =>
    simp only [Memory.readBytes]
    constructor
    · intro h
      by_cases hb : m.read a = none
      · exact ⟨0, by omega, by simpa using hb⟩
      · obtain ⟨b, hb⟩ := Option.ne_none_iff_exists'.mp hb
        by_cases hr : m.readBytes (a + 1) n = none
        · obtain ⟨k, hk, hn⟩ := (ih _).mp hr
          exact ⟨k + 1, by omega, by simpa [Nat.add_assoc, Nat.add_comm 1] using hn⟩
        · obtain ⟨bs, hr⟩ := Option.ne_none_iff_exists'.mp hr
          simp [hb, hr] at h
    · rintro ⟨k, hk, hn⟩
      rcases k with _ | k
      · simp at hn
        simp [hn]
      · have : m.readBytes (a + 1) n = none := (ih _).mpr ⟨k, by omega, by simpa [Nat.add_assoc, Nat.add_comm 1] using hn⟩
        simp [this]

/-- `MemRead` has as many bytes as asked for. -/
theorem Memory.readBytes_length (m : Memory) (a n : Nat) (bs : List Byte) (h : m.readBytes a n = some bs) :
    bs.length = n := ((m.readBytes_eq_some a n bs).mp h).1

/-- Two memories that agree on the bytes read give the same `MemRead`. -/
theorem Memory.readBytes_congr (m m' : Memory) (a n : Nat) (h : ∀ k, k < n → m'.read (a + k) = m.read (a + k)) :
    m'.readBytes a n = m.readBytes a n := by
  cases hm : m.readBytes a n with
  | none =>
    obtain ⟨k, hk, hn⟩ := (m.readBytes_eq_none a n).mp hm
    exact (m'.readBytes_eq_none a n).mpr ⟨k, hk, (h k hk).trans hn⟩
  | some bs =>
    obtain ⟨hl, hr⟩ := (m.readBytes_eq_some a n bs).mp hm
    exact (m'.readBytes_eq_some a n bs).mpr ⟨hl, fun k hk => (h k hk).trans (hr k hk)⟩

/-- `MemRead` of what `MemWrite` has stored. -/
theorem Memory.readBytes_writeBytes (m : Memory) (a : Nat) (bs : List Byte) :
    (m.writeBytes a bs).readBytes a bs.length = some bs := by
  refine ((m.writeBytes a bs).readBytes_eq_some a bs.length bs).mpr ⟨rfl, fun k hk => ?_⟩
  rw [Memory.read_writeBytes, if_pos (by omega)]
  congr 1
  omega

/-- A byte is read after forgetting iff it is outside the forgotten range. -/
theorem Memory.read_forget (m : Memory) (a n x : Nat) :
    (m.forget a n).read x = if a ≤ x ∧ x < a + n then none else m.read x := by
  induction m with
  | nil => simp [Memory.forget]
  | cons c m ih =>
    obtain ⟨k, b⟩ := c
    simp only [Memory.forget] at ih
    simp only [Memory.forget, List.filter_cons]
    split_ifs with h1 h2 h2 <;> simp_all [Memory.read_cons] <;> omega

/-! ### The canonical form -/

@[simp] theorem Memory.wf_nil : Memory.wf [] := List.Pairwise.nil

theorem Memory.mem_write {m : Memory} {a : Nat} {v : Byte} {c : Host.Cell} (h : c ∈ m.write a v) :
    c = (a, v) ∨ c ∈ m := by
  induction m with
  | nil => exact Or.inl (by simpa [Memory.write] using h)
  | cons d m ih =>
    obtain ⟨k, b⟩ := d
    simp only [Memory.write] at h
    split_ifs at h with h1 h2
    · simpa using h
    · rcases List.mem_cons.mp h with h | h
      · exact Or.inl h
      · exact Or.inr (by simp [h])
    · rcases List.mem_cons.mp h with h | h
      · exact Or.inr (by simp [h])
      · rcases ih h with h | h
        · exact Or.inl h
        · exact Or.inr (by simp [h])

/-- A write keeps the canonical form. -/
theorem Memory.wf_write (m : Memory) (a : Nat) (v : Byte) (h : m.wf) : (m.write a v).wf := by
  induction m with
  | nil => simp [Memory.write]
  | cons c m ih =>
    obtain ⟨k, b⟩ := c
    obtain ⟨hk, hm⟩ := List.pairwise_cons.mp h
    simp only [Memory.write]
    split_ifs with h1 h2
    · refine List.pairwise_cons.mpr ⟨fun d hd => ?_, h⟩
      rcases List.mem_cons.mp hd with rfl | hd
      · exact h1
      · exact h1.trans (hk d hd)
    · subst h2
      exact List.pairwise_cons.mpr ⟨hk, hm⟩
    · refine List.pairwise_cons.mpr ⟨fun d hd => ?_, ih hm⟩
      rcases Memory.mem_write hd with rfl | hd
      · show k < a
        omega
      · exact hk d hd

/-- Writing bytes in a row keeps the canonical form. -/
theorem Memory.wf_writeBytes (m : Memory) (a : Nat) (bs : List Byte) (h : m.wf) : (m.writeBytes a bs).wf := by
  induction bs generalizing m a with
  | nil => exact h
  | cons b bs ih => exact ih _ _ (m.wf_write a b h)

/-- Forgetting keeps the canonical form. -/
theorem Memory.wf_forget (m : Memory) (a n : Nat) (h : m.wf) : (m.forget a n).wf :=
  List.Pairwise.filter _ h

theorem Memory.within_write (m : Memory) (bound a : Nat) (v : Byte) (h : m.within bound) (ha : a < bound) :
    (m.write a v).within bound := by
  intro c hc
  rcases Memory.mem_write hc with rfl | hc
  · exact ha
  · exact h c hc

theorem Memory.within_writeBytes (m : Memory) (bound a : Nat) (bs : List Byte) (h : m.within bound)
    (ha : a + bs.length ≤ bound) : (m.writeBytes a bs).within bound := by
  induction bs generalizing m a with
  | nil => exact h
  | cons b bs ih =>
    simp only [List.length_cons] at ha
    exact ih _ _ (m.within_write bound a b h (by omega)) (by omega)

theorem Memory.within_forget (m : Memory) (bound a n : Nat) (h : m.within bound) : (m.forget a n).within bound :=
  fun c hc => h c (List.mem_of_mem_filter hc)

end Sys2Proof.Machine
end

