-- ==== Sys2Proof/Laws/State.lean ====
section
/-! SUPPORT. One lemma for each field and each named update of State, so that no proof unfolds a record update. -/

namespace Sys2Proof.Machine

variable (s : State)

/-! ### `State.applyWrites` -/

@[simp] theorem State.applyWrites_params (w : Writes) : (s.applyWrites w).params = s.params := rfl
@[simp] theorem State.applyWrites_operands (w : Writes) : (s.applyWrites w).operands = s.operands := rfl
@[simp] theorem State.applyWrites_cmd (w : Writes) : (s.applyWrites w).cmd = s.cmd := rfl
@[simp] theorem State.applyWrites_latch (w : Writes) : (s.applyWrites w).latch = s.latch := rfl
@[simp] theorem State.applyWrites_status (w : Writes) : (s.applyWrites w).status = s.status := rfl
@[simp] theorem State.applyWrites_ctrl (w : Writes) : (s.applyWrites w).ctrl = s.ctrl := rfl
@[simp] theorem State.applyWrites_errcode (w : Writes) : (s.applyWrites w).errcode = s.errcode := rfl
@[simp] theorem State.applyWrites_resultLen (w : Writes) : (s.applyWrites w).resultLen = s.resultLen := rfl
@[simp] theorem State.applyWrites_inputs (w : Writes) : (s.applyWrites w).inputs = s.inputs := rfl
@[simp] theorem State.applyWrites_reply (w : Writes) : (s.applyWrites w).reply = s.reply := rfl

/-! ### `State.finishOk` -/

@[simp] theorem State.finishOk_params (n : Nat) : (s.finishOk n).params = s.params := rfl
@[simp] theorem State.finishOk_operands (n : Nat) : (s.finishOk n).operands = s.operands := rfl
@[simp] theorem State.finishOk_cmd (n : Nat) : (s.finishOk n).cmd = s.cmd := rfl
@[simp] theorem State.finishOk_latch (n : Nat) : (s.finishOk n).latch = s.latch := rfl
@[simp] theorem State.finishOk_status (n : Nat) : (s.finishOk n).status = s.status.completed := rfl
@[simp] theorem State.finishOk_ctrl (n : Nat) : (s.finishOk n).ctrl = s.ctrl := rfl
@[simp] theorem State.finishOk_errcode (n : Nat) : (s.finishOk n).errcode = 0 := rfl
@[simp] theorem State.finishOk_resultLen (n : Nat) : (s.finishOk n).resultLen = BitVec.ofNat 32 n := rfl
@[simp] theorem State.finishOk_totp (n : Nat) : (s.finishOk n).totp = s.totp := rfl
@[simp] theorem State.finishOk_slots (n : Nat) : (s.finishOk n).slots = s.slots := rfl
@[simp] theorem State.finishOk_ram (n : Nat) : (s.finishOk n).ram = s.ram := rfl
@[simp] theorem State.finishOk_inputs (n : Nat) : (s.finishOk n).inputs = s.inputs := rfl
@[simp] theorem State.finishOk_reply (n : Nat) : (s.finishOk n).reply = s.reply := rfl

/-! ### `State.finishError` -/

@[simp] theorem State.finishError_params (e : CmdError) : (s.finishError e).params = s.params := rfl
@[simp] theorem State.finishError_operands (e : CmdError) : (s.finishError e).operands = s.operands := rfl
@[simp] theorem State.finishError_cmd (e : CmdError) : (s.finishError e).cmd = s.cmd := rfl
@[simp] theorem State.finishError_latch (e : CmdError) : (s.finishError e).latch = s.latch := rfl
@[simp] theorem State.finishError_status (e : CmdError) : (s.finishError e).status = s.status.failed := rfl
@[simp] theorem State.finishError_ctrl (e : CmdError) : (s.finishError e).ctrl = s.ctrl := rfl
@[simp] theorem State.finishError_errcode (e : CmdError) : (s.finishError e).errcode = e.code := rfl
@[simp] theorem State.finishError_resultLen (e : CmdError) : (s.finishError e).resultLen = 0 := rfl
@[simp] theorem State.finishError_totp (e : CmdError) : (s.finishError e).totp = s.totp := rfl
@[simp] theorem State.finishError_slots (e : CmdError) : (s.finishError e).slots = s.slots := rfl
@[simp] theorem State.finishError_ram (e : CmdError) : (s.finishError e).ram = s.ram := rfl
@[simp] theorem State.finishError_inputs (e : CmdError) : (s.finishError e).inputs = s.inputs := rfl
@[simp] theorem State.finishError_reply (e : CmdError) : (s.finishError e).reply = s.reply := rfl

/-! ### `State.accept` -/

@[simp] theorem State.accept_params (w : Word) : (s.accept w).params = s.params := rfl
@[simp] theorem State.accept_operands (w : Word) : (s.accept w).operands = s.operands := rfl
@[simp] theorem State.accept_cmd (w : Word) : (s.accept w).cmd = w := rfl
@[simp] theorem State.accept_status (w : Word) : (s.accept w).status = s.status.issued := rfl
@[simp] theorem State.accept_ctrl (w : Word) : (s.accept w).ctrl = s.ctrl := rfl
@[simp] theorem State.accept_errcode (w : Word) : (s.accept w).errcode = s.errcode := rfl
@[simp] theorem State.accept_resultLen (w : Word) : (s.accept w).resultLen = s.resultLen := rfl
@[simp] theorem State.accept_totp (w : Word) : (s.accept w).totp = s.totp := rfl
@[simp] theorem State.accept_slots (w : Word) : (s.accept w).slots = s.slots := rfl
@[simp] theorem State.accept_ram (w : Word) : (s.accept w).ram = s.ram := rfl
@[simp] theorem State.accept_inputs (w : Word) : (s.accept w).inputs = s.inputs := rfl
@[simp] theorem State.accept_reply (w : Word) : (s.accept w).reply = s.reply := rfl

/-! ### `State.drop` -/

@[simp] theorem State.drop_params : (s.drop).params = s.params := rfl
@[simp] theorem State.drop_operands : (s.drop).operands = s.operands := rfl
@[simp] theorem State.drop_cmd : (s.drop).cmd = s.cmd := rfl
@[simp] theorem State.drop_latch : (s.drop).latch = s.latch := rfl
@[simp] theorem State.drop_status : (s.drop).status = s.status.dropped := rfl
@[simp] theorem State.drop_ctrl : (s.drop).ctrl = s.ctrl := rfl
@[simp] theorem State.drop_errcode : (s.drop).errcode = s.errcode := rfl
@[simp] theorem State.drop_resultLen : (s.drop).resultLen = s.resultLen := rfl
@[simp] theorem State.drop_totp : (s.drop).totp = s.totp := rfl
@[simp] theorem State.drop_slots : (s.drop).slots = s.slots := rfl
@[simp] theorem State.drop_ram : (s.drop).ram = s.ram := rfl
@[simp] theorem State.drop_inputs : (s.drop).inputs = s.inputs := rfl
@[simp] theorem State.drop_reply : (s.drop).reply = s.reply := rfl

/-! ### `State.answer` -/

@[simp] theorem State.answer_params (v : Word) : (s.answer v).params = s.params := rfl
@[simp] theorem State.answer_operands (v : Word) : (s.answer v).operands = s.operands := rfl
@[simp] theorem State.answer_cmd (v : Word) : (s.answer v).cmd = s.cmd := rfl
@[simp] theorem State.answer_latch (v : Word) : (s.answer v).latch = s.latch := rfl
@[simp] theorem State.answer_status (v : Word) : (s.answer v).status = s.status := rfl
@[simp] theorem State.answer_ctrl (v : Word) : (s.answer v).ctrl = s.ctrl := rfl
@[simp] theorem State.answer_errcode (v : Word) : (s.answer v).errcode = s.errcode := rfl
@[simp] theorem State.answer_resultLen (v : Word) : (s.answer v).resultLen = s.resultLen := rfl
@[simp] theorem State.answer_totp (v : Word) : (s.answer v).totp = s.totp := rfl
@[simp] theorem State.answer_slots (v : Word) : (s.answer v).slots = s.slots := rfl
@[simp] theorem State.answer_ram (v : Word) : (s.answer v).ram = s.ram := rfl
@[simp] theorem State.answer_inputs (v : Word) : (s.answer v).inputs = s.inputs := rfl
@[simp] theorem State.answer_reply (v : Word) : (s.answer v).reply = some v := rfl

@[simp] theorem State.applyWrites_ram_none (k : Option (SlotIx × KeySlot)) (t : Option TotpRegs) :
    (s.applyWrites { ram := none, slot := k, totp := t }).ram = s.ram := rfl
@[simp] theorem State.applyWrites_ram_some (a : Nat) (bs : List Byte) (k : Option (SlotIx × KeySlot)) (t : Option TotpRegs) :
    (s.applyWrites { ram := some (a, bs), slot := k, totp := t }).ram = s.ram.writeBytes a bs := rfl
@[simp] theorem State.applyWrites_slots_none (m : Option (Nat × List Byte)) (t : Option TotpRegs) :
    (s.applyWrites { ram := m, slot := none, totp := t }).slots = s.slots := rfl
@[simp] theorem State.applyWrites_slots_some (m : Option (Nat × List Byte)) (i : SlotIx) (k : KeySlot) (t : Option TotpRegs) :
    (s.applyWrites { ram := m, slot := some (i, k), totp := t }).slots = s.slots.set i.val k := rfl
@[simp] theorem State.applyWrites_totp_none (m : Option (Nat × List Byte)) (k : Option (SlotIx × KeySlot)) :
    (s.applyWrites { ram := m, slot := k, totp := none }).totp = s.totp := rfl
@[simp] theorem State.applyWrites_totp_some (m : Option (Nat × List Byte)) (k : Option (SlotIx × KeySlot)) (t : TotpRegs) :
    (s.applyWrites { ram := m, slot := k, totp := some t }).totp = t := rfl
@[simp] theorem State.applyWrites_nothing : s.applyWrites {} = s := rfl

/-! ### `Status` -/

variable (f : Status)

@[simp] theorem Status.completed_busy : f.completed.busy = false := rfl
@[simp] theorem Status.completed_done : f.completed.done = true := rfl
@[simp] theorem Status.completed_err : f.completed.err = f.err := rfl
@[simp] theorem Status.completed_overrun : f.completed.overrun = f.overrun := rfl
@[simp] theorem Status.failed_busy : f.failed.busy = false := rfl
@[simp] theorem Status.failed_done : f.failed.done = true := rfl
@[simp] theorem Status.failed_err : f.failed.err = true := rfl
@[simp] theorem Status.failed_overrun : f.failed.overrun = f.overrun := rfl
@[simp] theorem Status.issued_busy : f.issued.busy = true := rfl
@[simp] theorem Status.issued_done : f.issued.done = false := rfl
@[simp] theorem Status.issued_err : f.issued.err = f.err := rfl
@[simp] theorem Status.issued_overrun : f.issued.overrun = f.overrun := rfl
@[simp] theorem Status.dropped_busy : f.dropped.busy = f.busy := rfl
@[simp] theorem Status.dropped_done : f.dropped.done = f.done := rfl
@[simp] theorem Status.dropped_err : f.dropped.err = f.err := rfl
@[simp] theorem Status.dropped_overrun : f.dropped.overrun = true := rfl

/-! ### Resets -/

@[simp] theorem State.hardReset_params : s.hardReset.params = s.params := rfl
@[simp] theorem State.hardReset_inputs : s.hardReset.inputs = s.inputs := rfl
@[simp] theorem State.hardReset_reply : s.hardReset.reply = s.reply := rfl
@[simp] theorem State.hardReset_ram : s.hardReset.ram = s.ramAfterReset := rfl
@[simp] theorem State.hardReset_slots : s.hardReset.slots = List.replicate s.params.numSlots KeySlot.cleared := rfl
@[simp] theorem State.powerCycle_params : s.powerCycle.params = s.params := rfl
@[simp] theorem State.powerCycle_inputs : s.powerCycle.inputs = s.inputs := rfl
@[simp] theorem State.powerCycle_ram : s.powerCycle.ram = [] := rfl

end Sys2Proof.Machine
end

