-- ==== Sys2Proof/Laws/Command.lean ====
section
/-! SUPPORT. What a command can do, said once: every meaning is the completion of a result, and every result that is ok has
good writes. -/

namespace Sys2Proof.Machine

/-- The result that a command completes with. -/
def resultOf : Instr → State → CmdResult
  | .nop, _ => .ok {} 0
  | .derive, s => runDerive s
  | .deriveKey slot kind, s => runDeriveKey slot kind s
  | .loadKey slot kind, s => runLoadKey slot kind s
  | .clearKey slot, _ => .ok { slot := some (slot, KeySlot.cleared) } 0
  | .rc4 slot, s => runRc4 slot s
  | .xteaEnc slot, s => runXteaEnc slot s
  | .xteaDec slot, s => runXteaDec slot s
  | .xteaEcbEnc slot, s => runXteaEcb ecbEnc slot s
  | .xteaEcbDec slot, s => runXteaEcb ecbDec slot s
  | .totpGen, s => runTotpGen s
  | .totpValidate allowLast, s => runTotpValidate allowLast s

/-- Every meaning is the completion of its result (30_encoding.md R121). -/
theorem exec_eq_complete (i : Instr) (s : State) : exec i s = s.complete (resultOf i s) := by cases i <;> rfl

/-- All that a completion can answer (30_encoding.md R121). -/
theorem complete_next (s t : State) (r : CmdResult) (h : s.complete r = .next t) :
    (∃ w n, r = .ok w n ∧ t = (s.applyWrites w).finishOk n) ∨ (∃ e, r = .error e ∧ t = s.finishError e) := by
  cases r with
  | ok w n => exact .inl ⟨w, n, rfl, by simpa [State.complete] using h.symm⟩
  | error e => exact .inr ⟨e, rfl, by simpa [State.complete] using h.symm⟩
  | uninit => simp [State.complete] at h

/-- All that a meaning can answer as a next state. -/
theorem exec_next (i : Instr) (s t : State) (h : exec i s = .next t) :
    (∃ w n, resultOf i s = .ok w n ∧ t = (s.applyWrites w).finishOk n) ∨
      (∃ e, resultOf i s = .error e ∧ t = s.finishError e) :=
  complete_next s t _ (exec_eq_complete i s ▸ h)

/-- A command that reads goes on with the bytes of its range, if they are all written (20_memory.md R93). -/
theorem withBytes_ok (s : State) (r : Range) (k : List Byte → CmdResult) (w : Writes) (n : Nat)
    (h : s.withBytes r k = .ok w n) : ∃ bytes, s.ram.readBytes r.addr r.len = some bytes ∧ k bytes = .ok w n := by
  simp only [State.withBytes] at h
  split at h
  · cases h
  · exact ⟨_, ‹_›, h⟩

/-- A command whose result may store to the data RAM (30_encoding.md R113). -/
def storesRam : Instr → Bool
  | .derive => true
  | .rc4 _ => true
  | .xteaEnc _ => true
  | .xteaDec _ => true
  | .xteaEcbEnc _ => true
  | .xteaEcbDec _ => true
  | .nop => false
  | .deriveKey _ _ => false
  | .loadKey _ _ => false
  | .clearKey _ => false
  | .totpGen => false
  | .totpValidate _ => false

/-- A command whose result may write a key slot (10_state.md R49). -/
def writesSlot : Instr → Bool
  | .deriveKey _ _ => true
  | .loadKey _ _ => true
  | .clearKey _ => true
  | .nop => false
  | .derive => false
  | .rc4 _ => false
  | .xteaEnc _ => false
  | .xteaDec _ => false
  | .xteaEcbEnc _ => false
  | .xteaEcbDec _ => false
  | .totpGen => false
  | .totpValidate _ => false

/-- A command whose result may write the TOTP result registers (10_state.md R43). -/
def writesTotp : Instr → Bool
  | .totpGen => true
  | .totpValidate _ => true
  | .nop => false
  | .derive => false
  | .deriveKey _ _ => false
  | .loadKey _ _ => false
  | .clearKey _ => false
  | .rc4 _ => false
  | .xteaEnc _ => false
  | .xteaDec _ => false
  | .xteaEcbEnc _ => false
  | .xteaEcbDec _ => false

/-- What the writes of a command that completes without error are like. -/
structure GoodWrites (i : Instr) (s : State) (w : Writes) (n : Nat) : Prop where
  ram_none : w.ram = none → n = 0
  ram_some : ∀ a bs, w.ram = some (a, bs) → a = s.latch.dstAddr.toNat ∧ bs.length = n ∧
    a + n ≤ s.params.bufBytes ∧ n ≤ nominalLen s.latch i
  slot : ∀ k ks, w.slot = some (k, ks) → i.slot? = some k ∧ ks.wf
  totp : ∀ r, w.totp = some r → s.totp.wf → r.wf
  ram_family : storesRam i = false → w.ram = none
  slot_family : writesSlot i = false → w.slot = none
  totp_family : writesTotp i = false → w.totp = none

/-- A slot built from as many bytes as its kind needs is well-formed (10_state.md R48). -/
theorem keyedSlot_wf (kind : KeyKind) (key : List Byte) (h : key.length = keyLen kind) : (keyedSlot kind key).wf := by
  cases kind with
  | rc4 =>
    refine ⟨?_, ?_, ?_⟩
    · simp_all [keyedSlot, keyLen]
    · intro hk
      simp [keyedSlot, slotKindOf] at hk
    · intro hk
      simp [keyedSlot, slotKindOf] at hk
  | xtea =>
    have hl : key.length = 128 := h
    refine ⟨?_, ?_, ?_⟩
    · simp [keyedSlot, hl]
    · intro hk
      simp [keyedSlot, slotKindOf] at hk
    · intro _
      have hd : (key ++ zeros (256 - key.length)).drop 128 = zeros (256 - key.length) := by
        rw [← hl, List.drop_left]
      rw [keyedSlot, hd, hl]

theorem cleared_wf : KeySlot.cleared.wf := by
  refine ⟨zeros_length 256, fun _ => rfl, fun h => ?_⟩
  simp [KeySlot.cleared] at h

/-- The OTP object is well-formed (10_state.md R43). -/
theorem totpObject_wf (ts : TsFormat) (seed : List Byte) (t : Nat) : (totpObject ts seed t).wf := by
  have h : (BitVec.ofNat 32 (secsRemaining t)).toNat = 60 - t % 60 := by
    simp only [secsRemaining, BitVec.toNat_ofNat]
    omega
  refine ⟨otp_lt _ _ _, otp_lt _ _ _, ?_, fun _ => ?_, fun hm => ?_⟩
  · simp only [totpObject, h]
    omega
  · simp only [totpObject, h]
    omega
  · simp [totpObject] at hm

/-- Writes of an output at the destination are good. -/
theorem GoodWrites.output {i : Instr} {s : State} {bs : List Byte} {n : Nat} {w : Writes} {m : Nat}
    (h : s.latch.output bs n = .ok w m) (hl : bs.length = n) (hv : (s.latch.dest n).valid s.params)
    (hn : n ≤ nominalLen s.latch i) (hi : storesRam i = true) : GoodWrites i s w m := by
  simp only [Latch.output, CmdResult.ok.injEq] at h
  obtain ⟨rfl, rfl⟩ := h
  refine ⟨by simp, ?_, by simp, by simp, by simp [hi], by simp, by simp⟩
  intro a b hab
  simp only [Option.some.injEq, Prod.mk.injEq] at hab
  obtain ⟨rfl, rfl⟩ := hab
  exact ⟨rfl, hl, hv, hn⟩

/-- Writes of a slot are good. -/
theorem GoodWrites.slotOnly {i : Instr} {s : State} {k : SlotIx} {ks : KeySlot} {w : Writes} {n : Nat}
    (h : CmdResult.ok { slot := some (k, ks) } 0 = .ok w n) (hi : i.slot? = some k) (hw : ks.wf)
    (hf : writesSlot i = true) : GoodWrites i s w n := by
  simp only [CmdResult.ok.injEq] at h
  obtain ⟨rfl, rfl⟩ := h
  refine ⟨by simp, by simp, ?_, by simp, by simp, by simp [hf], by simp⟩
  intro k' ks' hk
  simp only [Option.some.injEq, Prod.mk.injEq] at hk
  obtain ⟨rfl, rfl⟩ := hk
  exact ⟨hi, hw⟩

/-- Writes of the TOTP registers are good. -/
theorem GoodWrites.totpOnly {i : Instr} {s : State} {r : TotpRegs} {w : Writes} {n : Nat}
    (h : CmdResult.ok { totp := some r } 0 = .ok w n) (hr : s.totp.wf → r.wf)
    (hi : writesTotp i = true) : GoodWrites i s w n := by
  simp only [CmdResult.ok.injEq] at h
  obtain ⟨rfl, rfl⟩ := h
  refine ⟨by simp, by simp, by simp, ?_, by simp, by simp, by simp [hi]⟩
  intro r' hr'
  simp only [Option.some.injEq] at hr'
  subst hr'
  exact hr

theorem runDerive_ok (s : State) (w : Writes) (n : Nat) (h : runDerive s = .ok w n) : GoodWrites .derive s w n := by
  simp only [runDerive] at h
  split_ifs at h with h1 h2
  obtain ⟨p, _, h⟩ := withBytes_ok _ _ _ _ _ h
  exact .output h (by simp) h2 le_rfl rfl

theorem runDeriveKey_ok (slot : SlotIx) (kind : KeyKind) (s : State) (w : Writes) (n : Nat)
    (h : runDeriveKey slot kind s = .ok w n) : GoodWrites (.deriveKey slot kind) s w n := by
  simp only [runDeriveKey] at h
  split_ifs at h with h1
  obtain ⟨p, _, h⟩ := withBytes_ok _ _ _ _ _ h
  exact .slotOnly h rfl (keyedSlot_wf _ _ (by simp)) rfl

theorem runLoadKey_ok (slot : SlotIx) (kind : KeyKind) (s : State) (w : Writes) (n : Nat)
    (h : runLoadKey slot kind s = .ok w n) : GoodWrites (.loadKey slot kind) s w n := by
  simp only [runLoadKey] at h
  split_ifs at h with h1 h2 h3
  obtain ⟨key, hr, h⟩ := withBytes_ok _ _ _ _ _ h
  exact .slotOnly h rfl (keyedSlot_wf _ _ ((Memory.readBytes_length _ _ _ _ hr).trans (not_not.mp h3))) rfl

theorem runRc4_ok (slot : SlotIx) (s : State) (w : Writes) (n : Nat) (h : runRc4 slot s = .ok w n) :
    GoodWrites (.rc4 slot) s w n := by
  simp only [runRc4] at h
  split_ifs at h with h1 h2 h3
  obtain ⟨x, hr, h⟩ := withBytes_ok _ _ _ _ _ h
  have hl : x.length = s.latch.srcLen.toNat := Memory.readBytes_length _ _ _ _ hr
  exact .output h (by simp [hl]) h3 le_rfl rfl

theorem runXteaEnc_ok (slot : SlotIx) (s : State) (w : Writes) (n : Nat) (h : runXteaEnc slot s = .ok w n) :
    GoodWrites (.xteaEnc slot) s w n := by
  simp only [runXteaEnc] at h
  split_ifs at h with h1 h2 h3
  obtain ⟨x, hr, h⟩ := withBytes_ok _ _ _ _ _ h
  have hl : x.length = s.latch.srcLen.toNat := Memory.readBytes_length _ _ _ _ hr
  refine .output h ?_ h3 le_rfl rfl
  rw [ecbEnc_length, frame_length_eq, hl]
  exact Nat.mul_div_cancel' (Nat.dvd_of_mod_eq_zero (framedLen_mod _))

/-- The plaintext that an unframing returns has the length of the prefix, at most that of the bytes after it. -/
theorem unframe_some (f x : List Byte) (h : unframe f = some x) :
    framePrefix f ≤ f.length - 4 ∧ x = (f.drop 4).take (framePrefix f) ∧ x.length = framePrefix f := by
  simp only [unframe] at h
  split_ifs at h with h1
  obtain rfl := Option.some.inj h
  refine ⟨by omega, rfl, ?_⟩
  rw [List.length_take, List.length_drop]
  omega

theorem runXteaDec_ok (slot : SlotIx) (s : State) (w : Writes) (n : Nat) (h : runXteaDec slot s = .ok w n) :
    GoodWrites (.xteaDec slot) s w n := by
  simp only [runXteaDec] at h
  split_ifs at h with h1 h2 h3
  obtain ⟨c, hr, h⟩ := withBytes_ok _ _ _ _ _ h
  have hl : c.length = s.latch.srcLen.toNat := Memory.readBytes_length _ _ _ _ hr
  simp only [finishDec] at h
  split at h
  · cases h
  · rename_i x hx
    split_ifs at h with h4
    obtain ⟨hp, -, hxl⟩ := unframe_some _ _ hx
    rw [ecbDec_length, hl] at hp
    refine .output h hxl h4 ?_ rfl
    simp only [nominalLen]
    split_ifs <;> omega

theorem runXteaEcb_ok (f : List Word → List Byte → List Byte) (slot : SlotIx) (s : State) (w : Writes) (n : Nat) (i : Instr)
    (hf : ∀ k d, (f k d).length = 8 * (d.length / 8)) (hi : nominalLen s.latch i = s.latch.srcLen.toNat)
    (hs : storesRam i = true) (h : runXteaEcb f slot s = .ok w n) : GoodWrites i s w n := by
  simp only [runXteaEcb] at h
  split_ifs at h with h1 h2 h3 h4
  obtain ⟨d, hr, h⟩ := withBytes_ok _ _ _ _ _ h
  have hl : d.length = s.latch.srcLen.toNat := Memory.readBytes_length _ _ _ _ hr
  refine .output h ?_ h4 hi.ge hs
  rw [hf, hl]
  omega

theorem runTotpGen_ok (s : State) (w : Writes) (n : Nat) (h : runTotpGen s = .ok w n) : GoodWrites .totpGen s w n := by
  simp only [runTotpGen] at h
  split_ifs at h with h1 h2
  obtain ⟨seed, _, h⟩ := withBytes_ok _ _ _ _ _ h
  exact .totpOnly h (fun _ => totpObject_wf _ _ _) rfl

theorem runTotpValidate_ok (allowLast : Bool) (s : State) (w : Writes) (n : Nat) (h : runTotpValidate allowLast s = .ok w n) :
    GoodWrites (.totpValidate allowLast) s w n := by
  simp only [runTotpValidate] at h
  split_ifs at h with h1
  refine .totpOnly h (fun hw => ?_) rfl
  obtain ⟨hc, hl, hs, hp, hm⟩ := hw
  exact ⟨hc, hl, hs, hp, fun _ => by simpa using h1⟩

/-- The writes of every command that completes without error are good: what it stores, where, and how much; the slot it
names, well-formed; TOTP registers in their ranges. -/
theorem resultOf_ok (i : Instr) (s : State) (w : Writes) (n : Nat) (h : resultOf i s = .ok w n) : GoodWrites i s w n := by
  cases i with
  | nop =>
    simp only [resultOf, CmdResult.ok.injEq] at h
    obtain ⟨rfl, rfl⟩ := h
    exact ⟨by simp, by simp, by simp, by simp, by simp, by simp, by simp⟩
  | derive => exact runDerive_ok s w n h
  | deriveKey slot kind => exact runDeriveKey_ok slot kind s w n h
  | loadKey slot kind => exact runLoadKey_ok slot kind s w n h
  | clearKey slot => exact .slotOnly h rfl cleared_wf rfl
  | rc4 slot => exact runRc4_ok slot s w n h
  | xteaEnc slot => exact runXteaEnc_ok slot s w n h
  | xteaDec slot => exact runXteaDec_ok slot s w n h
  | xteaEcbEnc slot => exact runXteaEcb_ok _ slot s w n _ ecbEnc_length rfl rfl h
  | xteaEcbDec slot => exact runXteaEcb_ok _ slot s w n _ ecbDec_length rfl rfl h
  | totpGen => exact runTotpGen_ok s w n h
  | totpValidate allowLast => exact runTotpValidate_ok allowLast s w n h

/-- A result is the read of an unwritten byte only where some source byte is unwritten (20_memory.md R93). -/
theorem withBytes_uninit (s : State) (r : Range) (k : List Byte → CmdResult) (hk : ∀ b, k b ≠ .uninit)
    (h : s.withBytes r k = .uninit) : s.ram.readBytes r.addr r.len = none := by
  simp only [State.withBytes] at h
  split at h
  · assumption
  · exact absurd h (hk _)

theorem finishDec_ne_uninit (s : State) (f : List Byte) : finishDec s f ≠ .uninit := by
  simp only [finishDec]
  split
  · simp
  · split_ifs <;> simp [Latch.output]

theorem resultOf_uninit (i : Instr) (s : State) (h : resultOf i s = .uninit) :
    s.ram.readBytes s.latch.srcAddr.toNat s.latch.srcLen.toNat = none := by
  cases i <;> simp only [resultOf, runDerive, runDeriveKey, runLoadKey, runRc4, runXteaEnc, runXteaDec, runXteaEcb,
    runTotpGen, runTotpValidate, reduceCtorEq] at h
  all_goals (try split_ifs at h)
  all_goals exact withBytes_uninit s s.latch.source _ (by first | exact fun _ => finishDec_ne_uninit _ _ | simp [Latch.output]) h

/-- A result depends on the latch, the parameters, the source bytes of a valid source range, the named slot and the TOTP
registers, and on nothing else (30_encoding.md R121, 10_state.md R47, R49). -/
theorem resultOf_congr (i : Instr) (s s' : State) (hp : s'.params = s.params) (hl : s'.latch = s.latch)
    (ht : s'.totp = s.totp) (hs : ∀ k, i.slot? = some k → s'.slot k = s.slot k)
    (hr : s.latch.source.valid s.params → s'.ram.readBytes s.latch.srcAddr.toNat s.latch.srcLen.toNat =
      s.ram.readBytes s.latch.srcAddr.toNat s.latch.srcLen.toNat) : resultOf i s' = resultOf i s := by
  by_cases hv : s.latch.source.valid s.params
  · have hw : ∀ k, s'.withBytes s.latch.source k = s.withBytes s.latch.source k := fun k => by
      simp only [State.withBytes, Latch.source, hr hv]
    cases i <;> simp only [Instr.slot?, Option.some.injEq, forall_eq', reduceCtorEq, false_implies, implies_true] at hs <;>
      simp only [resultOf, runDerive, runDeriveKey, runLoadKey, runRc4, runXteaEnc, runXteaDec, runXteaEcb,
        runTotpGen, runTotpValidate, finishDec, hp, hl, ht, hs, hw]
  · cases i <;> simp only [Instr.slot?, Option.some.injEq, forall_eq', reduceCtorEq, false_implies, implies_true] at hs <;>
      simp only [resultOf, runDerive, runDeriveKey, runLoadKey, runRc4, runXteaEnc, runXteaDec, runXteaEcb,
        runTotpGen, runTotpValidate, hp, hl, ht, hs, if_pos hv]

end Sys2Proof.Machine
end

