-- ==== Sys2Proof/Laws/HostPort.lean ====
section
/-! SUPPORT. What a host access can do, said once: what each register write leaves, and where a RAM access can land. -/

namespace Sys2Proof.Machine

/-- All that a write to a register can leave (10_state.md R34 to R45). -/
inductive RegisterWritten (s : State) : State → Prop where
  /-- a read-only register, or a reserved offset -/
  | ignored : RegisterWritten s s
  | operands (o : OperandRegs) : RegisterWritten s { s with operands := o }
  | ctrl (c : Ctrl) : RegisterWritten s { s with ctrl := c }
  | status (v : Word) : RegisterWritten s { s with status := s.status.clearOnes v }
  | accepted (w : Word) (h : s.status.busy = false) : RegisterWritten s (s.accept w)
  | dropped (h : s.status.busy = true) : RegisterWritten s s.drop
  | reset : RegisterWritten s s.hardReset

theorem writeRegister_written (s : State) (r : Register) (v : Word) : RegisterWritten s (s.writeRegister r v) := by
  cases r with
  | ctrl =>
    simp only [State.writeRegister, State.writeCtrl]
    split
    · exact .reset
    · exact .ctrl _
  | cmd =>
    simp only [State.writeRegister, State.writeCmd]
    split
    · exact .dropped ‹_›
    · exact .accepted _ (Bool.eq_false_iff.mpr ‹_›)
  | status => exact .status v
  | srcAddr => exact .operands _
  | srcLen => exact .operands _
  | dstAddr => exact .operands _
  | outLen => exact .operands _
  | timeLo => exact .operands _
  | timeHi => exact .operands _
  | totpCand => exact .operands _
  | id => exact .ignored
  | config => exact .ignored
  | errcode => exact .ignored
  | resultLen => exact .ignored
  | totpCode => exact .ignored
  | totpLast => exact .ignored
  | totpSecs => exact .ignored
  | totpStatus => exact .ignored
  | keystat => exact .ignored

theorem writeOffset_written (s : State) (off : Nat) (v : Word) : RegisterWritten s (s.writeOffset off v) := by
  simp only [State.writeOffset]
  split
  · exact .ignored
  · exact writeRegister_written _ _ _

/-- The data RAM of a legal block is a whole number of words and at most half the window (00_scope.md R8). -/
theorem bufBytes_bounds (p : Params) (hp : p.legal) : 4 ∣ p.bufBytes ∧ p.bufBytes ≤ 0x100000 := by
  obtain ⟨-, -, ⟨hlo, hhi⟩, -⟩ := hp
  exact ⟨pow_dvd_pow 2 (show 2 ≤ p.bufLog2 by omega), Nat.pow_le_pow_right (show 0 < 2 by omega) hhi⟩

/-- A data-RAM access that the window map allows lies inside the data RAM (20_memory.md R84, R86). -/
theorem windowTarget_ram (p : Params) (off : Nat) (width : Width) (a : Nat) (hp : p.legal)
    (h : windowTarget p off width = .ram a) : a + width.bytes ≤ p.bufBytes := by
  obtain ⟨hd, hb⟩ := bufBytes_bounds p hp
  simp only [windowTarget] at h
  split_ifs at h with h1 h2 h3
  obtain ⟨-, h4, h5⟩ := h3
  obtain rfl : off % ramOffset = a := by simpa using h
  have hm : off % ramOffset = off % 1048576 := rfl
  rw [hm] at *
  cases width <;> simp only [Width.bytes] at h5 ⊢ <;> omega

/-- A data-RAM access that the map allows lies inside the data RAM (20_memory.md R84, R86). -/
theorem hostTarget_ram (p : Params) (addr : Nat) (width : Width) (a : Nat) (hp : p.legal)
    (h : hostTarget p addr width = .ram a) : a + width.bytes ≤ p.bufBytes := by
  simp only [hostTarget] at h
  split_ifs at h
  exact windowTarget_ram p _ width a hp h

/-- An offset below the window's size is reached through the window (20_memory.md R83). -/
theorem hostTarget_window (p : Params) (off : Nat) (width : Width) (h : off < 0x200000) :
    hostTarget p (p.windowBase + off) width = windowTarget p off width := by
  have hin : p.windowBase ≤ p.windowBase + off ∧ p.windowBase + off - p.windowBase < Config.windowBytes := by
    simp only [Config.windowBytes]
    omega
  rw [hostTarget, if_pos hin, Nat.add_sub_cancel_left]

/-- A 32-bit aligned access at an offset of the register window reaches that offset (20_memory.md R84). -/
theorem hostTarget_register (p : Params) (off : Nat) (h : off < 0x1000) (h4 : off % 4 = 0) :
    hostTarget p (p.windowBase + off) .word = .register off := by
  rw [hostTarget_window p off .word (by omega), windowTarget, if_pos h, if_pos ⟨rfl, h4⟩]

/-- A naturally aligned access to an address of the data RAM reaches that address (20_memory.md R84). -/
theorem hostTarget_ramAddress (p : Params) (a : Nat) (width : Width) (hp : p.legal) (h : a < p.bufBytes)
    (ha : a % width.bytes = 0) : hostTarget p (p.windowBase + (0x100000 + a)) width = .ram a := by
  obtain ⟨-, hb⟩ := bufBytes_bounds p hp
  have hm : (0x100000 + a) % 0x100000 = a := by omega
  have hr : ¬ 0x100000 + a < registerBytes := by
    simp only [registerBytes]
    omega
  have hw : (0x100000 + a) % width.bytes = 0 := by
    cases width <;> simp only [Width.bytes] at ha ⊢ <;> omega
  rw [hostTarget_window p _ width (by omega), windowTarget, if_neg hr]
  simp only [ramOffset, hm, h, hw, Nat.le_add_right, and_self, if_true]

/-- An access inside the data RAM touches a range iff one of its bytes is in it (70_reset_and_hazards.md R351, R352). -/
theorem Range.touches_iff (r : Range) (p : Params) (a n : Nat) (h : a + n ≤ p.bufBytes) :
    r.touches p a n ↔ ∃ k, k < n ∧ r.addr ≤ a + k ∧ a + k < r.addr + r.len := by
  constructor
  · intro ht
    exact ⟨max r.addr a - a, by omega, by omega, by omega⟩
  · rintro ⟨k, h1, h2, h3⟩
    show max r.addr a < min (min (r.addr + r.len) p.bufBytes) (a + n)
    omega

/-- A naturally aligned read of the data RAM (20_memory.md R84). -/
theorem hostAccess_readRam (s : State) (a : Nat) (width : Width) (hp : s.params.legal) (h : a < s.params.bufBytes)
    (ha : a % width.bytes = 0) :
    hostAccess s (.read (s.params.windowBase + (0x100000 + a)) width) = hostRamRead s a width.bytes := by
  simp only [hostAccess, hostTarget_ramAddress s.params a width hp h ha]

/-- A naturally aligned write to the data RAM (20_memory.md R84). -/
theorem hostAccess_writeRam (s : State) (a : Nat) (width : Width) (v : Word) (hp : s.params.legal)
    (h : a < s.params.bufBytes) (ha : a % width.bytes = 0) :
    hostAccess s (.write (s.params.windowBase + (0x100000 + a)) width v) = hostRamWrite s a width.bytes v := by
  simp only [hostAccess, hostTarget_ramAddress s.params a width hp h ha]

/-- A byte after a little-endian store of the low bytes of a word (20_memory.md R80). -/
theorem Memory.read_writeLe (m : Memory) (a n : Nat) (v : Word) (x : Nat) :
    (m.writeBytes a (leBytes n v.toNat)).read x =
      if a ≤ x ∧ x < a + n then some (v.extractLsb' (8 * (x - a)) 8) else m.read x := by
  rw [Memory.read_writeBytes, leBytes_length]
  split_ifs with h
  · exact leBytes_getElem?_word n v _ (by omega)
  · rfl

/-- All that a host access can answer as a next state (20_memory.md R84, R89). -/
theorem hostAccess_next (s t : State) (access : HostAccess) (h : hostAccess s access = .next t) :
    (∃ v, t = s.answer v) ∨ RegisterWritten s t ∨
      (∃ addr width a v, hostTarget s.params addr width = .ram a ∧ ¬ s.writeHazard a width.bytes ∧
        t = { s with ram := s.ram.writeBytes a (leBytes width.bytes v) }) := by
  cases access with
  | read addr width =>
    simp only [hostAccess] at h
    generalize ht : hostTarget s.params addr width = target at h
    cases target <;> simp only at h
    · cases h
      exact .inr (.inl .ignored)
    · cases h
      exact .inl ⟨_, rfl⟩
    · simp only [hostRamRead] at h
      split_ifs at h with h1
      split at h
      · cases h
      · cases h
        exact .inl ⟨_, rfl⟩
    · cases h
  | write addr width v =>
    simp only [hostAccess] at h
    generalize ht : hostTarget s.params addr width = target at h
    cases target <;> simp only at h
    · cases h
      exact .inr (.inl .ignored)
    · cases h
      exact .inr (.inl (writeOffset_written _ _ _))
    · rename_i a
      simp only [hostRamWrite] at h
      split_ifs at h with h1
      cases h
      exact .inr (.inr ⟨addr, width, a, v.toNat, ht, h1, rfl⟩)
    · cases h

end Sys2Proof.Machine
end

