-- ==== Sys2Proof/Laws/Engine.lean ====
section
/-! SUPPORT. What performing a command and what a step can do, said once. -/

namespace Sys2Proof.Machine

/-- All that the completion of the pending command can answer (30_encoding.md R121). -/
theorem perform_next (s t : State) (h : perform s = .next t) :
    (∃ i w n, decode s.params.numSlots s.latch.cmd = .ok i ∧ resultOf i s = .ok w n ∧
      t = (s.applyWrites w).finishOk n) ∨ (∃ e, t = s.finishError e) := by
  simp only [perform] at h
  split at h
  · rename_i i hi
    rcases exec_next i s t h with ⟨w, n, hr, ht⟩ | ⟨e, -, ht⟩
    · exact .inl ⟨i, w, n, hi, hr, ht⟩
    · exact .inr ⟨e, ht⟩
  · cases h
    exact .inr ⟨.illegalCommand, rfl⟩

/-- All that the engine's turn can answer. -/
theorem engineTurn_next (s t : State) (h : engineTurn s = .next t) : t = s ∨ (s.status.busy = true ∧ perform s = .next t) := by
  simp only [engineTurn] at h
  split_ifs at h with hb
  · exact .inr ⟨hb, h⟩
  · cases h
    exact .inl rfl

/-- A step takes the next event, or gives the engine its turn when none is left. -/
theorem step_next (s t : State) (h : step s = .next t) :
    (s.inputs = [] ∧ engineTurn s = .next t) ∨
      (∃ e rest, s.inputs = e :: rest ∧ happen { s with inputs := rest } e = .next t) := by
  simp only [step, nextEvent] at h
  split at h
  · exact .inl ⟨‹_›, h⟩
  · exact .inr ⟨_, _, ‹_›, h⟩

end Sys2Proof.Machine
end

