-- ==== Sys2Proof/Laws/PerInstr.lean ====
section
/-! SUPPORT. The family EncodedFields: what stands in the fields of a command's word (30_encoding.md R110, R113), for each
constructor of Instr. -/

namespace Sys2Proof.Laws

/-- The reserved bits of a command's word are 0, and its `SLOT` field is the slot the command names, 0 if it names none
(30_encoding.md R110, R113). -/
def EncodedFields.Statement (i : Instr) : Prop :=
  rsvField (encode i) = 0 ∧ (slotField (encode i)) = i.slot?.getD 0

/-- The fields of a word packed from fields that fit. -/
theorem packWord_fields (op slot kind : Nat) (a : Bool) (ho : op < 256) (hs : slot < 16) (hk : kind < 4) :
    opField (packWord op slot kind a) = op ∧ (slotField (packWord op slot kind a)).val = slot ∧
      kindField (packWord op slot kind a) = kind ∧ allowLastField (packWord op slot kind a) = a ∧
      rsvField (packWord op slot kind a) = 0 := by
  have ha : a.toNat ≤ 1 := by cases a <;> simp
  have hn : (packWord op slot kind a).toNat = op + 256 * slot + 4096 * kind + 16384 * a.toNat := by
    simp only [packWord, BitVec.toNat_ofNat]
    omega
  refine ⟨?_, ?_, ?_, ?_, ?_⟩
  · simp only [opField, hn]
    omega
  · simp only [slotField, hn]
    omega
  · simp only [kindField, hn]
    omega
  · simp only [allowLastField, hn]
    have : (op + 256 * slot + 4096 * kind + 16384 * a.toNat) / 16384 % 2 = a.toNat := by omega
    rw [this]
    cases a <;> rfl
  · simp only [rsvField, hn]
    omega

/-- A word whose reserved bits are 0 is packed from its fields (30_encoding.md R110). -/
theorem packWord_of_fields (w : Word) (h : rsvField w = 0) :
    packWord (opField w) (slotField w).val (kindField w) (allowLastField w) = w := by
  have ha : (allowLastField w).toNat = w.toNat / 16384 % 2 := by
    simp only [allowLastField]
    rcases Nat.mod_two_eq_zero_or_one (w.toNat / 16384) with h | h <;> simp [h]
  apply BitVec.eq_of_toNat_eq
  have hw := w.isLt
  simp only [packWord, ha, opField, slotField, kindField, rsvField, BitVec.toNat_ofNat] at *
  omega

theorem packWord_statement (op kind : Nat) (slot : SlotIx) (a : Bool) (ho : op < 256) (hk : kind < 4) :
    rsvField (packWord op slot.val kind a) = 0 ∧ slotField (packWord op slot.val kind a) = slot := by
  obtain ⟨-, hs, -, -, hr⟩ := packWord_fields op slot.val kind a ho slot.isLt hk
  exact ⟨hr, Fin.ext hs⟩

theorem EncodedFields.nop : EncodedFields.Statement .nop := packWord_statement 0x00 0 0 false (by decide) (by decide)

theorem EncodedFields.derive : EncodedFields.Statement .derive := packWord_statement 0x01 0 0 false (by decide) (by decide)

theorem EncodedFields.deriveKey (slot : SlotIx) (kind : KeyKind) : EncodedFields.Statement (.deriveKey slot kind) :=
  packWord_statement 0x02 kind.field slot false (by decide) (by cases kind <;> decide)

theorem EncodedFields.loadKey (slot : SlotIx) (kind : KeyKind) : EncodedFields.Statement (.loadKey slot kind) :=
  packWord_statement 0x03 kind.field slot false (by decide) (by cases kind <;> decide)

theorem EncodedFields.clearKey (slot : SlotIx) : EncodedFields.Statement (.clearKey slot) :=
  packWord_statement 0x04 0 slot false (by decide) (by decide)

theorem EncodedFields.rc4 (slot : SlotIx) : EncodedFields.Statement (.rc4 slot) :=
  packWord_statement 0x10 0 slot false (by decide) (by decide)

theorem EncodedFields.xteaEnc (slot : SlotIx) : EncodedFields.Statement (.xteaEnc slot) :=
  packWord_statement 0x20 0 slot false (by decide) (by decide)

theorem EncodedFields.xteaDec (slot : SlotIx) : EncodedFields.Statement (.xteaDec slot) :=
  packWord_statement 0x21 0 slot false (by decide) (by decide)

theorem EncodedFields.xteaEcbEnc (slot : SlotIx) : EncodedFields.Statement (.xteaEcbEnc slot) :=
  packWord_statement 0x22 0 slot false (by decide) (by decide)

theorem EncodedFields.xteaEcbDec (slot : SlotIx) : EncodedFields.Statement (.xteaEcbDec slot) :=
  packWord_statement 0x23 0 slot false (by decide) (by decide)

theorem EncodedFields.totpGen : EncodedFields.Statement .totpGen :=
  packWord_statement 0x30 0 0 false (by decide) (by decide)

theorem EncodedFields.totpValidate (allowLast : Bool) : EncodedFields.Statement (.totpValidate allowLast) :=
  packWord_statement 0x31 0 0 allowLast (by decide) (by decide)

end Sys2Proof.Laws
end

