-- ==== Sys2Proof/Tests/Slice0.lean ====
section
/-! SUPPORT. The model's own tests: one step on a small state each, with values of spec/95_test_vectors.md; the ill-formed
terms that WellFormed refuses; decoded words; and a state that meets the hypotheses of each statement that has some. -/

namespace Sys2Proof.Tests

-- One theorem at a time: the kernel's evaluations side by side take too many threads' memory.
set_option Elab.async false

open Sys2Proof.Machine

/-! ## Helpers -/

/-- A busy block with the reference parameters, and a latch with the given fields. -/
def busy (cmd srcAddr srcLen dstAddr outLen : Word) (time : DWord := 0) (cand : Word := 0) : State :=
  { State.reset with
    status := { busy := true, done := false, err := false, overrun := false }
    latch := { cmd := cmd, srcAddr := srcAddr, srcLen := srcLen, dstAddr := dstAddr, outLen := outLen, time := time,
               totpCand := cand } }

/-- The block with some bytes of its data RAM written. -/
def ram (s : State) (a : Nat) (bytes : List Byte) : State := { s with ram := s.ram.writeBytes a bytes }

/-- The block with `n` zero bytes of its data RAM written, and no other byte. -/
def ramZeros (s : State) (a n : Nat) : State := { s with ram := (List.range n).map fun i => (a + i, 0) }

/-- The block with the slot 1 as given. -/
def slot1 (s : State) (kind : SlotKind) (key : List Byte) : State :=
  { s with slots := s.slots.set 1 { kind := kind, key := key } }

/-- The block with things still to happen. -/
def then_ (s : State) (events : List Event) : State := { s with inputs := events }

/-- The block with an OTP present: the codes of 44_totp.md R266's example. -/
def otpPresent (s : State) : State :=
  { s with totp := { code := 0x678E062B, last := 0x0E1B0E21, secs := 40, present := true, matched := false } }

/-- The next state, if there is one. -/
def next? : Host.Outcome State Fault Refusal → Option State
  | .next s => some s
  | .fault _ => none
  | .refused _ => none

theorem exists_next (o : Host.Outcome State Fault Refusal) (h : (next? o).isSome = true) : ∃ t, o = .next t := by
  cases o with
  | next t => exact ⟨t, rfl⟩
  | fault r => cases h
  | refused r => cases h

/-- The bytes of an ASCII text. -/
def ascii (text : String) : List Byte := text.toList.map fun c => BitVec.ofNat 8 c.toNat

/-- The bytes of a text in UTF-32, least significant byte first. -/
def utf32 (text : String) : List Byte := text.toList.flatMap fun c => leBytes 4 c.toNat

/-- A byte sequence as one integer, its first byte the most significant: as the spec's hexadecimal strings show it. -/
def bigEndian (bytes : List Byte) : Nat := leValue bytes.reverse

/-- The key of 43_xtea.md R240's example, as the 256 bytes of a slot. -/
def exampleKey : List Byte :=
  [0x03, 0x02, 0x01, 0x00, 0x07, 0x06, 0x05, 0x04, 0x0B, 0x0A, 0x09, 0x08, 0x0F, 0x0E, 0x0D, 0x0C] ++ zeros 240

/-- What the host reads of the completion: STATUS, ERRCODE, RESULT_LEN. -/
def completion (s : State) : Word × Word × Word :=
  (s.readRegister .status, s.readRegister .errcode, s.readRegister .resultLen)

/-! ## WellFormed: a slot the block does not have -/

theorem test_wf_refuses_missing_slot :
    (Instr.deriveKey 4 .rc4).wf 4 = false ∧ (Instr.loadKey 4 .xtea).wf 4 = false ∧ (Instr.clearKey 4).wf 4 = false ∧
      (Instr.rc4 4).wf 4 = false ∧ (Instr.xteaEnc 4).wf 4 = false ∧ (Instr.xteaDec 4).wf 4 = false ∧
      (Instr.xteaEcbEnc 4).wf 4 = false ∧ (Instr.xteaEcbDec 4).wf 4 = false := by decide

theorem test_wf_accepts_last_slot : (Instr.rc4 3).wf 4 = true ∧ (Instr.rc4 15).wf 16 = true ∧ Instr.nop.wf 1 = true := by
  decide

/-! ## Decoding: words written out from the pattern of 30_encoding.md R111, RSV A KK SSSS OOOOOOOO -/

theorem test_decode_nop : decode 4 0b00000000000000000000000000000000 = .ok .nop := by decide
theorem test_decode_derive : decode 4 0b00000000000000000000000000000001 = .ok .derive := by decide
theorem test_decode_deriveKey : decode 4 0b00000000000000000010001100000010 = .ok (.deriveKey 3 .xtea) := by decide
theorem test_decode_loadKey : decode 4 0b00000000000000000001000100000011 = .ok (.loadKey 1 .rc4) := by decide
theorem test_decode_clearKey : decode 4 0b00000000000000000000001000000100 = .ok (.clearKey 2) := by decide
theorem test_decode_rc4 : decode 4 0b00000000000000000000000100010000 = .ok (.rc4 1) := by decide
theorem test_decode_xteaEnc : decode 4 0b00000000000000000000001100100000 = .ok (.xteaEnc 3) := by decide
theorem test_decode_xteaDec : decode 4 0b00000000000000000000000100100001 = .ok (.xteaDec 1) := by decide
theorem test_decode_xteaEcbEnc : decode 16 0b00000000000000000000101000100010 = .ok (.xteaEcbEnc 10) := by decide
theorem test_decode_xteaEcbDec : decode 4 0b00000000000000000000000100100011 = .ok (.xteaEcbDec 1) := by decide
theorem test_decode_totpGen : decode 4 0b00000000000000000000000000110000 = .ok .totpGen := by decide
theorem test_decode_totpValidate : decode 4 0b00000000000000000100000000110001 = .ok (.totpValidate true) ∧
    decode 4 0b00000000000000000000000000110001 = .ok (.totpValidate false) := by decide

/-- 30_encoding.md R116: each reason for which a word is illegal, and the two gaps' edges (R113). -/
theorem test_decode_illegal :
    decode 4 0x80000000 = .error .reservedBits ∧ decode 4 0x00000005 = .error .reservedOp ∧
      decode 4 0x0000000F = .error .reservedOp ∧ decode 4 0x00000011 = .error .reservedOp ∧
      decode 4 0x000000FF = .error .reservedOp ∧ decode 4 0x00000100 = .error .unusedField ∧
      decode 4 0x00001004 = .error .unusedField ∧ decode 4 0x00000131 = .error .unusedField ∧
      decode 4 0x00000002 = .error .badKind ∧ decode 4 0x00003003 = .error .badKind ∧
      decode 4 0x00000410 = .error .slotOutOfRange := by decide

theorem test_encode_words : encode (.loadKey 1 .xtea) = 0x00002103 ∧ encode (.totpValidate true) = 0x00004031 ∧
    encode (.xteaEcbDec 1) = 0x00000123 := by decide

theorem test_table_word : decodeTableWord 32 0x00000110 = some (.rc4 1) ∧ decodeTableWord 32 0x00000024 = none := by decide

/-! ## The primitives, on published vectors (95_test_vectors.md L2.1, L2.3, L2.4) -/

theorem test_sha1_abc : bigEndian (sha1 (ascii "abc")) = 0xA9993E364706816ABA3E25717850C26C9CD0D89D := by decide +kernel

theorem test_sha256_abc : bigEndian (sha256 (ascii "abc")) =
    0xBA7816BF8F01CFEA414140DE5DAE2223B00361A396177A9CB410FF61F20015AD := by decide +kernel

theorem test_pbkdf2_rfc6070 : bigEndian (pbkdf2 (ascii "password") (ascii "salt") 1 20) =
    0x0C60C80F961F0E71F3A9B524AF6012062FE037A6 := by decide +kernel

theorem test_encBlock_published :
    encBlock [0x00010203, 0x04050607, 0x08090A0B, 0x0C0D0E0F] (0x41424344, 0x45464748) = (0x497DF3D0, 0x72612CB5) := by
  decide +kernel

/-! ## The commands, each performed in one step (95_test_vectors.md L2.2 to L2.5) -/

/-- 45_control.md R290. -/
theorem test_nop : (next? (step (busy 0x00000000 0 0 0 0))).map completion = some (0x00000002, 0, 0) := by decide +kernel

/-- L2.2 D3: an empty output at the end of the data RAM. -/
theorem test_derive : (next? (step (ram (busy 0x00000001 0 28 0x10000 0) 0 (utf32 "jumanji")))).map
    (fun t => (completion t, t.ram.length)) = some ((0x00000002, 0, 0), 28) := by decide +kernel

/-- L2.2 D4. -/
theorem test_derive_range : (next? (step (busy 0x00000001 0 0 0x10000 1))).map completion = some (0x00000006, 5, 0) := by
  decide +kernel

/-- L2.2 D7. -/
theorem test_deriveKey : (next? (step (ram (busy 0x00002102 0 44 0 0) 0 (utf32 "Hello World")))).map
    (fun t => (completion t, t.readRegister .keystat)) = some ((0x00000002, 0, 0), 0x00000008) := by decide +kernel

/-- 41_key_derivation.md R188: 128 bytes and then 128 zero bytes, from the last bytes of the data RAM. -/
theorem test_loadKey : (next? (step (ram (busy 0x00002103 0xFF80 128 0 0) 0xFF80 (exampleKey.take 128)))).map
    (fun t => (completion t, t.readRegister .keystat, (t.slot 1).key)) =
    some ((0x00000002, 0, 0), 0x00000008, exampleKey) := by decide +kernel

/-- L2.2 D9, D10, D11. -/
theorem test_loadKey_lengths :
    (next? (step (busy 0x00001103 0 255 0 0))).map completion = some (0x00000006, 2, 0) ∧
      (next? (step (busy 0x00001103 0 0 0 0))).map completion = some (0x00000006, 4, 0) ∧
      (next? (step (busy 0x00002103 0 0 0 0))).map completion = some (0x00000006, 2, 0) := by decide +kernel

/-- L2.2 D14. -/
theorem test_clearKey : (next? (step (slot1 (busy 0x00000104 0 0 0 0) .xtea exampleKey))).map
    (fun t => (completion t, t.readRegister .keystat, (t.slot 1).key)) = some ((0x00000002, 0, 0), 0, zeros 256) := by
  decide +kernel

/-- L2.4: the 256-byte repetition of "Key", in place (published). -/
theorem test_rc4 : (next? (step (slot1 (ram (busy 0x00000110 0 9 0 0) 0 (ascii "Plaintext")) .rc4
    ((List.range 256).map fun i => (ascii "Key").getD (i % 3) 0)))).map
    (fun t => (completion t, (t.ram.readBytes 0 9).map bigEndian)) =
    some ((0x00000002, 0, 9), some 0xBBF316E8D940AF0AD3) := by decide +kernel

/-- 95_test_vectors.md L2.4, 41_key_derivation.md R192: RC4 on an XTEA slot. -/
theorem test_rc4_kind : (next? (step (slot1 (busy 0x00000110 0 0 0 0) .xtea exampleKey))).map completion =
    some (0x00000006, 6, 0) := by decide +kernel

/-- L2.3: an all-zero key. The empty plaintext's frame is the zero block. -/
theorem test_xteaEnc : (next? (step (slot1 (busy 0x00000120 0x10000 0 0xFFF8 0) .xtea (zeros 256)))).map
    (fun t => (completion t, (t.ram.readBytes 0xFFF8 8).map bigEndian)) =
    some ((0x00000002, 0, 8), some 0xD8D4E9DED91E13F7) := by decide +kernel

/-- L2.3: `FramedLen(5)` = 16 does not fit. -/
theorem test_xteaEnc_range : (next? (step (slot1 (busy 0x00000120 0xFFF0 5 0xFFF8 0) .xtea (zeros 256)))).map completion =
    some (0x00000006, 5, 0) := by decide +kernel

/-- L2.3 X2 with an all-zero key: the zero block's frame has prefix 0. -/
theorem test_xteaDec : (next? (step (slot1 (ram (busy 0x00000121 0 8 0x10000 0) 0
    [0xD8, 0xD4, 0xE9, 0xDE, 0xD9, 0x1E, 0x13, 0xF7]) .xtea (zeros 256)))).map completion = some (0x00000002, 0, 0) := by
  decide +kernel

/-- 43_xtea.md R238: R240's example decrypts to a prefix of 0x41424344, which exceeds 4. -/
theorem test_xteaDec_malformed : (next? (step (slot1 (ram (busy 0x00000121 0 8 0 0) 0
    [0xD0, 0xF3, 0x7D, 0x49, 0xB5, 0x2C, 0x61, 0x72]) .xtea exampleKey))).map completion = some (0x00000006, 3, 0) := by
  decide +kernel

/-- 43_xtea.md R240's example. -/
theorem test_xteaEcbEnc : (next? (step (slot1 (ram (busy 0x00000122 0 8 8 0) 0
    [0x44, 0x43, 0x42, 0x41, 0x48, 0x47, 0x46, 0x45]) .xtea exampleKey))).map
    (fun t => (completion t, (t.ram.readBytes 0 16).map bigEndian)) =
    some ((0x00000002, 0, 8), some 0x4443424148474645D0F37D49B52C6172) := by decide +kernel

/-- 43_xtea.md R242's example. -/
theorem test_xteaEcbDec : (next? (step (slot1 (ram (busy 0x00000123 0 8 8 0) 0
    [0xD0, 0xF3, 0x7D, 0x49, 0xB5, 0x2C, 0x61, 0x72]) .xtea exampleKey))).map
    (fun t => (completion t, (t.ram.readBytes 8 8).map bigEndian)) =
    some ((0x00000002, 0, 8), some 0x4443424148474645) := by decide +kernel

/-- L2.3: 12 bytes are no whole number of blocks. -/
theorem test_xteaEcb_length : (next? (step (slot1 (busy 0x00000123 0 12 8 0) .xtea exampleKey))).map completion =
    some (0x00000006, 3, 0) := by decide +kernel

/-- L2.5: seed "Hello World" at 1700000000. -/
theorem test_totpGen : (next? (step (ram (busy 0x00000030 0 11 0 0 0x000000006553F100) 0 (ascii "Hello World")))).map
    (fun t => (completion t, t.totp)) =
    some ((0x00000002, 0, 0), { code := 0x678E062B, last := 0x0E1B0E21, secs := 40, present := true, matched := false }) := by
  decide +kernel

/-- L2.5 T2: a time of 59. -/
theorem test_totpGen_range : (next? (step (busy 0x00000030 0 0 0 0 59))).map completion = some (0x00000006, 5, 0) := by
  decide +kernel

/-- L2.5 T4, T5, T6, T7. -/
theorem test_totpValidate :
    (next? (step (otpPresent (busy 0x00000031 0 0 0 0 0 0x678E062B)))).map (·.readRegister .totpStatus) = some 3 ∧
      (next? (step (otpPresent (busy 0x00000031 0 0 0 0 0 0x0E1B0E21)))).map (·.readRegister .totpStatus) = some 1 ∧
      (next? (step (otpPresent (busy 0x00004031 0 0 0 0 0 0x0E1B0E21)))).map (·.readRegister .totpStatus) = some 3 ∧
      (next? (step (otpPresent (busy 0x00004031 0 0 0 0 0 0xE78E062B)))).map (·.readRegister .totpStatus) = some 1 := by
  decide +kernel

/-- L2.5 T1. -/
theorem test_totpValidate_none : (next? (step (busy 0x00000031 0 0 0 0))).map completion = some (0x00000006, 7, 0) := by
  decide +kernel

/-- 20_memory.md R93: a command that reads a byte nothing has written. -/
theorem test_unwritten_source : (next? (step (busy 0x00000001 0 1 0 0))).isNone = true := by decide +kernel

/-- The first step after reset with a placed word performs it; what the command needs is not there, so it fails (R192). -/
theorem test_withFetchWord : (next? (step (State.reset.withFetchWord 32 0x00000010))).map completion =
    some (0x00000006, 6, 0) := by decide +kernel

/-! ## The host's side -/

/-- 10_state.md R35, R37: reset values as the host reads them. -/
theorem test_reset_reads : State.reset.readOffset 0x004 = 0x0010040A ∧ State.reset.readOffset 0x00C = 0 ∧
    State.reset.readOffset 0xFFC = 0 := by decide

/-- 70_reset_and_hazards.md R344: a reset of a busy block forgets its destination and nothing else. -/
theorem test_reset_while_busy : ((ram (busy 0x00000001 0 2 1 2) 0 [1, 2, 3, 4]).hardReset).ram = [(0, 1), (3, 4)] := by
  decide

/-- 70_reset_and_hazards.md R351: the source range is clipped to the data RAM. -/
theorem test_hazard_clipped : (ram (busy 0x00000010 0xFFFE 9 0 0) 0 [1]).writeHazard 0xFFFC 4 ∧
    ¬ (ram (busy 0x00000010 0xFFFE 9 0 0) 0 [1]).writeHazard 0xFFF8 4 ∧
    (busy 0x00000001 0 0 8 4).readHazard 10 2 ∧ ¬ (busy 0x00000001 0 0 8 4).readHazard 12 1 := by decide

/-! ## Witnesses: states that meet the hypotheses of the statements -/

theorem witness_DecodeOfEncode : (Instr.xteaDec 3).wf 4 = true ∧ (Instr.loadKey 15 .rc4).wf 16 = true := by decide

theorem witness_EncodeOfDecode : decode 4 0x00004031 = .ok (.totpValidate true) := by decide

theorem witness_DecodeAgreesWithMatchTable : matchTable.any (fun r => r.holds 4 0x00000310) = true := by decide

theorem witness_StepRunsDecodedCommand :
    ((busy 0 0 0 0 0).status.busy = true ∧ decode 4 (busy 0 0 0 0 0).latch.cmd = .ok .nop ∧ (busy 0 0 0 0 0).inputs = []) ∧
      (then_ (busy 0 0 0 0 0) [.engine, .reset]).inputs = .engine :: [.reset] := by decide

theorem witness_IllegalWordCompletesWithError : ∃ s : State, s.status.busy = true ∧
    decode s.params.numSlots s.latch.cmd = .error .reservedOp := ⟨busy 0x00000005 0 0 0 0, by decide⟩

theorem witness_IdleBlockStays : State.reset.status.busy = false ∧ State.reset.inputs = [] := by decide

/-- An empty password, and an output that ends at the last byte. -/
theorem witness_DeriveResult : ∃ s : State,
    s.latch.srcAddr.toNat + s.latch.srcLen.toNat ≤ s.params.bufBytes ∧
    s.latch.dstAddr.toNat + s.latch.outLen.toNat ≤ s.params.bufBytes ∧
    s.ram.readBytes s.latch.srcAddr.toNat s.latch.srcLen.toNat = some [0x61] :=
  ⟨ram (busy 0x00000001 0xFFFF 1 0xFFEC 20) 0xFFFF [0x61], by decide⟩

theorem witness_DeriveKeyResult : ∃ s : State,
    s.latch.srcAddr.toNat + s.latch.srcLen.toNat ≤ s.params.bufBytes ∧
    s.ram.readBytes s.latch.srcAddr.toNat s.latch.srcLen.toNat = some [0x61] :=
  ⟨ram (busy 0x00001002 0xFFFF 1 0 0) 0xFFFF [0x61], by decide⟩

theorem witness_LoadKeyResult :
    (∃ s : State, s.latch.srcAddr.toNat + s.latch.srcLen.toNat ≤ s.params.bufBytes ∧ s.latch.srcLen = 256 ∧
      s.ram.readBytes s.latch.srcAddr.toNat s.latch.srcLen.toNat = some (zeros 256)) ∧
    (∃ s : State, s.latch.srcAddr.toNat + s.latch.srcLen.toNat ≤ s.params.bufBytes ∧ s.latch.srcLen = 128 ∧
      s.ram.readBytes s.latch.srcAddr.toNat s.latch.srcLen.toNat = some (zeros 128)) :=
  ⟨⟨ramZeros (busy 0x00001003 0xFF00 256 0 0) 0xFF00 256, by decide +kernel⟩,
    ⟨ramZeros (busy 0x00002003 0xFF80 128 0 0) 0xFF80 128, by decide +kernel⟩⟩

theorem witness_LoadKeyLengthErrors :
    (∃ s : State, s.latch.srcAddr.toNat + s.latch.srcLen.toNat ≤ s.params.bufBytes ∧ s.latch.srcLen = 0) ∧
    (∃ s : State, s.latch.srcAddr.toNat + s.latch.srcLen.toNat ≤ s.params.bufBytes ∧ s.latch.srcLen ≠ 0 ∧
      s.latch.srcLen ≠ 256 ∧ s.latch.srcLen = 255) ∧
    (∃ s : State, s.latch.srcAddr.toNat + s.latch.srcLen.toNat ≤ s.params.bufBytes ∧ s.latch.srcLen ≠ 128 ∧
      s.latch.srcLen = 129) :=
  ⟨⟨busy 3 0x10000 0 0 0, by decide⟩, ⟨busy 3 0xFF01 255 0 0, by decide⟩, ⟨busy 3 0 129 0 0, by decide⟩⟩

theorem witness_Rc4Result : ∃ s : State, (s.slot 1).kind = .rc4 ∧
    s.latch.srcAddr.toNat + s.latch.srcLen.toNat ≤ s.params.bufBytes ∧
    s.latch.dstAddr.toNat + s.latch.srcLen.toNat ≤ s.params.bufBytes ∧
    s.ram.readBytes s.latch.srcAddr.toNat s.latch.srcLen.toNat = some [1, 2] :=
  ⟨slot1 (ram (busy 0x00000110 0xFFFE 2 0xFFFE 0) 0xFFFE [1, 2]) .rc4 identityTable, by decide +kernel⟩

theorem witness_XteaEncResult : ∃ s : State, s.params.legal ∧ (s.slot 1).kind = .xtea ∧
    s.latch.srcAddr.toNat + s.latch.srcLen.toNat ≤ s.params.bufBytes ∧
    s.latch.dstAddr.toNat + 8 * ((s.latch.srcLen.toNat + 4 + 7) / 8) ≤ s.params.bufBytes ∧
    s.ram.readBytes s.latch.srcAddr.toNat s.latch.srcLen.toNat = some [1, 2, 3, 4] :=
  ⟨slot1 (ram (busy 0x00000120 0xFFF0 4 0xFFF8 0) 0xFFF0 [1, 2, 3, 4]) .xtea exampleKey, by decide +kernel⟩

/-- The three cases of `XTEA_DEC`: a prefix of N - 4, a prefix that is too large, a destination that is too short by one. -/
theorem witness_XteaDecResult :
    (∃ (s : State) (c : List Byte), (s.slot 1).kind = .xtea ∧
      s.latch.srcAddr.toNat + s.latch.srcLen.toNat ≤ s.params.bufBytes ∧ s.latch.srcLen.toNat % 8 = 0 ∧
      8 ≤ s.latch.srcLen.toNat ∧ s.ram.readBytes s.latch.srcAddr.toNat s.latch.srcLen.toNat = some c ∧
      (le32 (ecbDec (subkeys (s.slot 1).key) c)).toNat = s.latch.srcLen.toNat - 4 ∧
      s.latch.dstAddr.toNat + (le32 (ecbDec (subkeys (s.slot 1).key) c)).toNat = s.params.bufBytes) ∧
    (∃ (s : State) (c : List Byte), (s.slot 1).kind = .xtea ∧
      s.latch.srcAddr.toNat + s.latch.srcLen.toNat ≤ s.params.bufBytes ∧ s.latch.srcLen.toNat % 8 = 0 ∧
      8 ≤ s.latch.srcLen.toNat ∧ s.ram.readBytes s.latch.srcAddr.toNat s.latch.srcLen.toNat = some c ∧
      s.latch.srcLen.toNat - 4 < (le32 (ecbDec (subkeys (s.slot 1).key) c)).toNat) ∧
    (∃ (s : State) (c : List Byte), (s.slot 1).kind = .xtea ∧
      s.latch.srcAddr.toNat + s.latch.srcLen.toNat ≤ s.params.bufBytes ∧ s.latch.srcLen.toNat % 8 = 0 ∧
      8 ≤ s.latch.srcLen.toNat ∧ s.ram.readBytes s.latch.srcAddr.toNat s.latch.srcLen.toNat = some c ∧
      (le32 (ecbDec (subkeys (s.slot 1).key) c)).toNat = s.latch.srcLen.toNat - 4 ∧
      s.latch.dstAddr.toNat + (le32 (ecbDec (subkeys (s.slot 1).key) c)).toNat = s.params.bufBytes + 1) := by
  refine ⟨⟨slot1 (ram (busy 0x00000121 0 8 0xFFFC 0) 0 (ecbEnc (subkeys (zeros 256)) (frame [1, 2, 3, 4]))) .xtea (zeros 256),
      ecbEnc (subkeys (zeros 256)) (frame [1, 2, 3, 4]), ?_⟩,
    ⟨slot1 (ram (busy 0x00000121 0 8 0 0) 0 [0xD0, 0xF3, 0x7D, 0x49, 0xB5, 0x2C, 0x61, 0x72]) .xtea exampleKey,
      [0xD0, 0xF3, 0x7D, 0x49, 0xB5, 0x2C, 0x61, 0x72], ?_⟩,
    ⟨slot1 (ram (busy 0x00000121 0 8 0xFFFD 0) 0 (ecbEnc (subkeys (zeros 256)) (frame [1, 2, 3, 4]))) .xtea (zeros 256),
      ecbEnc (subkeys (zeros 256)) (frame [1, 2, 3, 4]), ?_⟩⟩ <;> decide +kernel

theorem witness_XteaEcbResult : ∃ s : State, (s.slot 1).kind = .xtea ∧
    s.latch.srcAddr.toNat + s.latch.srcLen.toNat ≤ s.params.bufBytes ∧ s.latch.srcLen.toNat % 8 = 0 ∧
    s.latch.dstAddr.toNat + s.latch.srcLen.toNat ≤ s.params.bufBytes ∧
    s.ram.readBytes s.latch.srcAddr.toNat s.latch.srcLen.toNat = some (zeros 8) :=
  ⟨slot1 (ram (busy 0x00000122 0xFFF8 8 0xFFF8 0) 0xFFF8 (zeros 8)) .xtea exampleKey, by decide +kernel⟩

theorem witness_TotpGenResult : ∃ s : State,
    s.latch.srcAddr.toNat + s.latch.srcLen.toNat ≤ s.params.bufBytes ∧ s.latch.time.toNat = 60 ∧
    s.ram.readBytes s.latch.srcAddr.toNat s.latch.srcLen.toNat = some [0x41] :=
  ⟨ram (busy 0x00000030 0xFFFF 1 0 0 60) 0xFFFF [0x41], by decide⟩

theorem witness_TotpValidateResult : (otpPresent (busy 0x31 0 0 0 0)).totp.present = true ∧
    (busy 0x31 0 0 0 0).totp.present = false := by decide

theorem witness_CipherNeedsItsKeyKind : (State.reset.slot 3).kind ≠ .rc4 ∧ (State.reset.slot 3).kind ≠ .xtea := by decide

theorem witness_InvalidSourceIsRangeError :
    (busy 1 0x10001 0 0 0).params.bufBytes <
      (busy 1 0x10001 0 0 0).latch.srcAddr.toNat + (busy 1 0x10001 0 0 0).latch.srcLen.toNat ∧
    (∃ s : State, s.params.bufBytes < s.latch.srcAddr.toNat + s.latch.srcLen.toNat ∧ (s.slot 1).kind = .rc4) ∧
    (∃ s : State, s.params.bufBytes < s.latch.srcAddr.toNat + s.latch.srcLen.toNat ∧ (s.slot 1).kind = .xtea) := by
  refine ⟨by decide, ⟨slot1 (busy 1 0xFFFFFFFF 2 0 0) .rc4 identityTable, by decide⟩,
    ⟨slot1 (busy 1 0xFFFF 2 0 0) .xtea exampleKey, by decide⟩⟩

theorem witness_InvalidDestinationIsRangeError :
    (∃ s : State, s.latch.srcAddr.toNat + s.latch.srcLen.toNat ≤ s.params.bufBytes ∧
      s.latch.dstAddr.toNat + s.latch.outLen.toNat = s.params.bufBytes + 1) ∧
    (∃ s : State, s.latch.srcAddr.toNat + s.latch.srcLen.toNat ≤ s.params.bufBytes ∧ (s.slot 1).kind = .rc4 ∧
      s.latch.dstAddr.toNat + s.latch.srcLen.toNat = s.params.bufBytes + 1) ∧
    (∃ s : State, s.latch.srcAddr.toNat + s.latch.srcLen.toNat ≤ s.params.bufBytes ∧ (s.slot 1).kind = .xtea ∧
      s.latch.dstAddr.toNat + 8 * ((s.latch.srcLen.toNat + 4 + 7) / 8) = s.params.bufBytes + 1) ∧
    (∃ s : State, s.latch.srcAddr.toNat + s.latch.srcLen.toNat ≤ s.params.bufBytes ∧ (s.slot 1).kind = .xtea ∧
      s.latch.srcLen.toNat % 8 = 0 ∧ s.latch.dstAddr.toNat + s.latch.srcLen.toNat = s.params.bufBytes + 1) ∧
    (∃ s : State, s.latch.srcAddr.toNat + s.latch.srcLen.toNat ≤ s.params.bufBytes ∧ s.latch.time.toNat = 59) :=
  ⟨⟨busy 1 0 0 0x10000 1, by decide⟩, ⟨slot1 (busy 1 0 1 0x10000 0) .rc4 identityTable, by decide⟩,
    ⟨slot1 (busy 1 0 4 0xFFF9 0) .xtea exampleKey, by decide⟩, ⟨slot1 (busy 1 0 8 0xFFF9 0) .xtea exampleKey, by decide⟩,
    ⟨busy 1 0 0 0 0 59, by decide⟩⟩

theorem witness_BrokenBlocksAreMalformed :
    (∃ s : State, (s.slot 1).kind = .xtea ∧ s.latch.srcAddr.toNat + s.latch.srcLen.toNat ≤ s.params.bufBytes ∧
      s.latch.srcLen.toNat % 8 ≠ 0) ∧
    (∃ s : State, (s.slot 1).kind = .xtea ∧ s.latch.srcAddr.toNat + s.latch.srcLen.toNat ≤ s.params.bufBytes ∧
      s.latch.srcLen.toNat = 0) :=
  ⟨⟨slot1 (busy 1 0 9 0 0) .xtea exampleKey, by decide⟩, ⟨slot1 (busy 1 0x10000 0 0 0) .xtea exampleKey, by decide⟩⟩

/-- Both cases: a next state, and a source byte nothing has written. -/
theorem witness_OnlyUnwrittenSourceStopsACommand :
    (∃ t, exec .nop State.reset = .next t) ∧ exec .derive (busy 1 0xFFFF 1 0 0) = .fault .uninitRead :=
  ⟨exists_next _ (by decide +kernel), rfl⟩

theorem witness_ErrorCompletionIsPrecise : ∃ s t : State, s.status.busy = true ∧ perform s = .next t ∧ t.errcode ≠ 0 :=
  ⟨busy 0x00000005 0 0 0 0, (busy 0x00000005 0 0 0 0).finishError .illegalCommand, by decide, rfl, by decide⟩

/-- A command of each family that completes: nothing stored, a store, a slot, the TOTP registers, an error. -/
theorem witness_CommandFrame :
    (∃ t, exec .nop State.reset = .next t) ∧
    (∃ t, exec .derive (busy 1 0 0 0xFFFF 1) = .next t) ∧
    (∃ t, exec (.clearKey 3) State.reset = .next t) ∧
    (∃ t, exec (.totpValidate true) (otpPresent State.reset) = .next t) ∧
    (∃ t, exec (.rc4 0) State.reset = .next t) :=
  ⟨exists_next _ (by decide +kernel), exists_next _ (by decide +kernel), exists_next _ (by decide +kernel),
    exists_next _ (by decide +kernel), exists_next _ (by decide +kernel)⟩

theorem witness_CommandMemoryFrame : ∃ s t : State, s.params.legal ∧
    exec (.xteaEnc 1) s = .next t ∧ t.resultLen = 8 ∧ s.latch.dstAddr.toNat + t.resultLen.toNat = s.params.bufBytes := by
  refine ⟨slot1 (busy 0x00000120 0x10000 0 0xFFF8 0) .xtea exampleKey, _, by decide,
    (rfl : exec (.xteaEnc 1) (slot1 (busy 0x00000120 0x10000 0 0xFFF8 0) .xtea exampleKey) =
      .next ((State.applyWrites (slot1 (busy 0x00000120 0x10000 0 0xFFF8 0) .xtea exampleKey)
        { ram := some (0xFFF8, ecbEnc (subkeys exampleKey) (frame [])) }).finishOk 8)), by decide, by decide⟩

theorem witness_UnnamedSlotNotWritten :
    exec (.clearKey 0) (slot1 State.reset .rc4 identityTable) =
        .next (((slot1 State.reset .rc4 identityTable).applyWrites { slot := some (0, KeySlot.cleared) }).finishOk 0) ∧
      (Instr.clearKey 0).slot? ≠ some 1 := ⟨rfl, by decide⟩

theorem witness_UnnamedSlotNotRead :
    (slot1 State.reset .rc4 identityTable).slots.length = State.reset.slots.length ∧
      (slot1 State.reset .rc4 identityTable).slots[0]? = State.reset.slots[0]? ∧
      (Instr.clearKey 0).slot? = some 0 ∧ ∃ t, exec (.clearKey 0) State.reset = .next t :=
  ⟨by decide +kernel, by decide +kernel, by decide, exists_next _ (by decide +kernel)⟩

theorem witness_KeyScheduleIsPermutation : ascii "Key" ≠ [] := by decide

theorem witness_StretchPrefix : (0 : Nat) ≤ 20 ∧ (20 : Nat) ≤ 21 := by decide

theorem witness_TruncateIsMaskedWord : (zeros 32).length = 32 := by decide

/-- The first and the last second of the first window allowed, the seed once at the first byte and once at the last. -/
theorem witness_SameWindowSameCodes : ∃ s s' : State, s'.params.ts = s.params.ts ∧
    s.latch.srcAddr.toNat + s.latch.srcLen.toNat ≤ s.params.bufBytes ∧
    s'.latch.srcAddr.toNat + s'.latch.srcLen.toNat ≤ s'.params.bufBytes ∧
    s.ram.readBytes s.latch.srcAddr.toNat s.latch.srcLen.toNat = some [0x41] ∧
    s'.ram.readBytes s'.latch.srcAddr.toNat s'.latch.srcLen.toNat = some [0x41] ∧
    s.latch.time.toNat = 60 ∧ s'.latch.time.toNat = 119 ∧ s.latch.time.toNat / 60 = s'.latch.time.toNat / 60 :=
  ⟨ram (busy 0x30 0 1 0 0 60) 0 [0x41], ram (busy 0x30 0xFFFF 1 0 0 119) 0xFFFF [0x41], by decide⟩

theorem witness_UnframeOfFrame : ([] : List Byte).length < 2 ^ 32 ∧ (ascii "TEST").length < 2 ^ 32 := by decide

/-- A second state for the law over two `RC4` commands: the first one's destination is its source. -/
theorem witness_Rc4SelfInverse : ∃ s t u : State, (s.slot 1).kind = .rc4 ∧
    s.latch.srcAddr.toNat + s.latch.srcLen.toNat ≤ s.params.bufBytes ∧
    s.latch.dstAddr.toNat + s.latch.srcLen.toNat ≤ s.params.bufBytes ∧
    s.ram.readBytes s.latch.srcAddr.toNat s.latch.srcLen.toNat = some [7] ∧ exec (.rc4 1) s = .next t ∧
    u.params = s.params ∧ u.slot 1 = s.slot 1 ∧ u.latch.srcAddr = s.latch.dstAddr ∧ u.latch.srcLen = s.latch.srcLen ∧
    u.latch.dstAddr.toNat + u.latch.srcLen.toNat ≤ u.params.bufBytes ∧
    u.ram.readBytes s.latch.dstAddr.toNat s.latch.srcLen.toNat = t.ram.readBytes s.latch.dstAddr.toNat s.latch.srcLen.toNat := by
  obtain ⟨t, ht⟩ := exists_next (exec (.rc4 1) (slot1 (ram (busy 0x110 0 1 8 0) 0 [7]) .rc4 identityTable)) (by decide +kernel)
  refine ⟨slot1 (ram (busy 0x110 0 1 8 0) 0 [7]) .rc4 identityTable, t,
    { slot1 (busy 0x110 8 1 16 0) .rc4 identityTable with ram := t.ram }, by decide, by decide, by decide, by decide, ht,
    rfl, rfl, rfl, rfl, (by decide : 16 + 1 ≤ 2 ^ 16), rfl⟩

theorem witness_XteaFramedRoundTrip : ∃ s t u : State, s.params.legal ∧ (s.slot 1).kind = .xtea ∧
    s.latch.srcAddr.toNat + s.latch.srcLen.toNat ≤ s.params.bufBytes ∧
    s.latch.dstAddr.toNat + framedLen s.latch.srcLen.toNat ≤ s.params.bufBytes ∧
    s.ram.readBytes s.latch.srcAddr.toNat s.latch.srcLen.toNat = some [7] ∧ exec (.xteaEnc 1) s = .next t ∧
    u.params = s.params ∧ u.slot 1 = s.slot 1 ∧ u.latch.srcAddr = s.latch.dstAddr ∧ u.latch.srcLen = t.resultLen ∧
    u.latch.dstAddr.toNat + s.latch.srcLen.toNat ≤ u.params.bufBytes ∧
    u.ram.readBytes s.latch.dstAddr.toNat t.resultLen.toNat = t.ram.readBytes s.latch.dstAddr.toNat t.resultLen.toNat := by
  obtain ⟨t, ht⟩ := exists_next (exec (.xteaEnc 1) (slot1 (ram (busy 0x120 0 1 8 0) 0 [7]) .xtea exampleKey)) (by decide +kernel)
  refine ⟨slot1 (ram (busy 0x120 0 1 8 0) 0 [7]) .xtea exampleKey, t,
    { slot1 (busy 0x121 8 t.resultLen 16 0) .xtea exampleKey with ram := t.ram }, by decide, by decide, by decide, by decide,
    by decide, ht, rfl, rfl, rfl, rfl, (by decide : 16 + 1 ≤ 2 ^ 16), rfl⟩

theorem witness_XteaUnframedRoundTrip : ∃ s t u : State, (s.slot 1).kind = .xtea ∧
    s.latch.srcAddr.toNat + s.latch.srcLen.toNat ≤ s.params.bufBytes ∧ s.latch.srcLen.toNat % 8 = 0 ∧
    s.latch.dstAddr.toNat + s.latch.srcLen.toNat ≤ s.params.bufBytes ∧
    s.ram.readBytes s.latch.srcAddr.toNat s.latch.srcLen.toNat = some (zeros 8) ∧ exec (.xteaEcbEnc 1) s = .next t ∧
    u.params = s.params ∧ u.slot 1 = s.slot 1 ∧ u.latch.srcAddr = s.latch.dstAddr ∧ u.latch.srcLen = s.latch.srcLen ∧
    u.latch.dstAddr.toNat + u.latch.srcLen.toNat ≤ u.params.bufBytes ∧
    u.ram.readBytes s.latch.dstAddr.toNat s.latch.srcLen.toNat = t.ram.readBytes s.latch.dstAddr.toNat s.latch.srcLen.toNat := by
  obtain ⟨t, ht⟩ := exists_next (exec (.xteaEcbEnc 1) (slot1 (ram (busy 0x122 0 8 8 0) 0 (zeros 8)) .xtea exampleKey))
    (by decide +kernel)
  refine ⟨slot1 (ram (busy 0x122 0 8 8 0) 0 (zeros 8)) .xtea exampleKey, t,
    { slot1 (busy 0x123 8 8 16 0) .xtea exampleKey with ram := t.ram }, by decide, by decide, by decide, by decide,
    by decide, ht, rfl, rfl, rfl, rfl, (by decide : 16 + 8 ≤ 2 ^ 16), rfl⟩

/-- Legal parameters at the ends of their ranges. -/
theorem witness_ConfigFields : ∃ s t : State, s.params.legal ∧ t.params.legal ∧ s.params.pbkdfIter = 20 ∧
    s.params.numSlots = 16 ∧ s.params.bufLog2 = 20 ∧ t.params.numSlots = 1 ∧ t.params.bufLog2 = 12 :=
  ⟨{ State.reset with
      params := { pbkdfIter := 20, numSlots := 16, bufLog2 := 20, ts := .platform 0, windowBase := 0x200000 } },
    { State.reset with params := { pbkdfIter := 10, numSlots := 1, bufLog2 := 12, ts := .decimal, windowBase := 0 } },
    by decide⟩

theorem witness_ResetIsGood : Params.reference.legal := by decide

/-- The first, some listed, the last listed and the last offset of the register window. -/
theorem witness_RegisterReads : ∀ off ∈ [0x000, 0x008, 0x018, 0x048, 0x04C, 0xFFC], off < 0x1000 ∧ off % 4 = 0 := by decide

/-- The first, the first and the last operand register's, the last listed and the last offset. -/
theorem witness_RegisterWrites : ∀ off ∈ [0x000, 0x018, 0x034, 0x048, 0xFFC],
    off < 0x1000 ∧ off % 4 = 0 ∧ off ≠ 0x008 ∧ off ≠ 0x00C ∧ off ≠ 0x014 := by decide

theorem witness_KeystatBits : State.reset.slots.length ≤ 16 ∧ State.reset.slots[3]? = some KeySlot.cleared ∧
    State.reset.slots[4]? = none := by decide +kernel

theorem witness_CtrlWrite : (0x00000006 : Word).getLsbD 0 = false := by decide

theorem witness_CmdWriteAcceptedOrDropped : State.reset.status.busy = false ∧ (busy 0 0 0 0 0).status.busy = true := by decide

theorem witness_CompletionWinsOverStatusWrite : ∃ s t : State, s.status.busy = true ∧
    s.inputs = .engineAndStatusWrite 0x0000000E :: [] ∧ step s = .next t ∧ t.errcode ≠ 0 :=
  ⟨then_ (busy 0x00000005 0 0 0 0) [.engineAndStatusWrite 0x0000000E],
    ((then_ (busy 0x00000005 0 0 0 0) []).writeRegister .status 0x0000000E).finishError .illegalCommand,
    by decide, rfl, rfl, by decide⟩

/-- The edges of the reserved regions, and misaligned or narrow accesses. -/
theorem witness_BusErrorsOfTheWindow :
    ∀ x ∈ [(0x001, 1), (0x002, 4), (0xFFE, 2), (0x1000, 4), (0xFFFFF, 1), (0x100001, 2), (0x100002, 4), (0x110000, 1),
      (0x1FFFFF, 1)],
      x.1 < 0x200000 ∧ ¬ (x.1 < 0x1000 ∧ x.2 = 4 ∧ x.1 % 4 = 0) ∧
        ¬ (0x100000 ≤ x.1 ∧ x.1 < 0x100000 + State.reset.params.bufBytes ∧ x.1 % x.2 = 0) := by decide

/-- The last access of each width, on written bytes, and a 32-bit access of which one byte only is unwritten. -/
theorem witness_RamAccessIsLittleEndian :
    (∃ s : State, s.params.legal ∧ s.status.busy = false ∧
      (∀ x ∈ [(0xFFFF, 1, 0x99), (0xFFFE, 2, 0x9988), (0xFFFC, 4, 0x99887766)],
        x.1 < s.params.bufBytes ∧ x.1 % x.2.1 = 0 ∧ x.2.2 < 2 ^ (8 * x.2.1) ∧
          ∀ k < x.2.1, s.ram.read (x.1 + k) = some ((BitVec.ofNat 32 x.2.2).extractLsb' (8 * k) 8))) ∧
    (∃ s : State, s.params.legal ∧ s.status.busy = false ∧ 0xFFFC < s.params.bufBytes ∧ 0xFFFC % 4 = 0 ∧
      (∃ k, k < 4 ∧ s.ram.read (0xFFFC + k) = none) ∧ s.ram.read 0xFFFE = some 3) :=
  ⟨⟨ram State.reset 0xFFFC [0x66, 0x77, 0x88, 0x99], by decide⟩,
    ⟨ram State.reset 0xFFFC [1, 2, 3], by decide, by decide, by decide, by decide, ⟨3, by decide⟩, by decide⟩⟩

/-- `DERIVE` pending, from the 2 bytes at 0x12 to the 2 bytes at 0x21. Each clause at a boundary: 32-bit accesses that touch a
range with some of their bytes only, the bytes just after each range, a read of an unwritten and of a written byte. -/
theorem witness_RamAccessWhileBusy : ∃ s : State, s.params.legal ∧ s.status.busy = true ∧
    (∃ i, decode s.params.numSlots s.latch.cmd = .ok i ∧ 2 = nominalLen s.latch i) ∧
    (∃ k, k < 4 ∧ s.latch.dstAddr.toNat ≤ 0x20 + k ∧ 0x20 + k < s.latch.dstAddr.toNat + 2) ∧
    (∃ k, k < 4 ∧ s.latch.srcAddr.toNat ≤ 0x10 + k ∧ 0x10 + k < s.latch.srcAddr.toNat + s.latch.srcLen.toNat) ∧
    ¬ (∃ k, k < 1 ∧ s.latch.dstAddr.toNat ≤ 0x23 + k ∧ 0x23 + k < s.latch.dstAddr.toNat + 2) ∧
    s.ram.read (0x23 + 0) = none ∧
    ¬ (∃ k, k < 4 ∧ s.latch.dstAddr.toNat ≤ 0x10 + k ∧ 0x10 + k < s.latch.dstAddr.toNat + 2) ∧
    (∀ k < 4, s.ram.read (0x10 + k) = some ((0x04030201 : Word).extractLsb' (8 * k) 8)) ∧
    ¬ (∃ k, k < 4 ∧ s.latch.srcAddr.toNat ≤ 0x14 + k ∧ 0x14 + k < s.latch.srcAddr.toNat + s.latch.srcLen.toNat) ∧
    ¬ (∃ k, k < 4 ∧ s.latch.dstAddr.toNat ≤ 0x14 + k ∧ 0x14 + k < s.latch.dstAddr.toNat + 2) := by
  refine ⟨ram (busy 0x00000001 0x12 2 0x21 2) 0x10 [1, 2, 3, 4], by decide, by decide, ⟨.derive, by decide⟩,
    ⟨1, by decide⟩, ⟨2, by decide⟩, by decide, by decide, by decide, by decide, by decide, by decide⟩

/-- The same with an illegal word pending: its source range, which ends at the last byte, and no destination. -/
theorem witness_RamAccessWhileBusy_illegal : ∃ s : State, s.params.legal ∧ s.status.busy = true ∧
    (∃ e, decode s.params.numSlots s.latch.cmd = .error e) ∧
    (∃ k, k < 4 ∧ s.latch.srcAddr.toNat ≤ 0xFFFC + k ∧ 0xFFFC + k < s.latch.srcAddr.toNat + s.latch.srcLen.toNat) ∧
    ¬ (∃ k, k < 1 ∧ s.latch.srcAddr.toNat ≤ 0xFFFE + k ∧ 0xFFFE + k < s.latch.srcAddr.toNat + s.latch.srcLen.toNat) ∧
    ¬ (∃ k, k < 1 ∧ s.latch.dstAddr.toNat ≤ 0xFFFE + k ∧ 0xFFFE + k < s.latch.dstAddr.toNat + 0) :=
  ⟨busy 0x00000005 0xFFFF 9 0xFFFE 4, by decide, by decide, ⟨.reservedOp, by decide⟩, ⟨3, by decide⟩, by decide, by decide⟩

/-- An operand register is written while a command is pending. -/
theorem witness_PendingCommandIgnoresTheHost : ∃ s s' t : State, s.status.busy = true ∧
    hostAccess s (.write 0x018 .word 5) = .next s' ∧ s'.status.busy = true ∧ perform s = .next t :=
  ⟨busy 0 0 0 0 0, (busy 0 0 0 0 0).writeRegister .srcAddr 5, (busy 0 0 0 0 0).finishOk 0, by decide, rfl, by decide, rfl⟩

/-- `KEYSTAT` is read, a command is issued, `STATUS` is read, with two different keys in a slot. -/
theorem witness_KeyBytesAreInvisible : ∃ (accesses : List HostAccess) (s t : State) (other : List KeySlot),
    other.map KeySlot.kind = s.slots.map KeySlot.kind ∧ other ≠ s.slots ∧ s.inputs = accesses.map Event.host ∧
    Sys2Proof.core.run accesses.length s = .next t := by
  obtain ⟨t, ht⟩ := exists_next (Sys2Proof.core.run 3 (then_ (slot1 State.reset .rc4 identityTable)
    [.host (.read 0x048 .word), .host (.write 0x014 .word 0x110), .host (.read 0x00C .word)])) (by decide +kernel)
  exact ⟨[.read 0x048 .word, .write 0x014 .word 0x110, .read 0x00C .word],
    then_ (slot1 State.reset .rc4 identityTable)
      [.host (.read 0x048 .word), .host (.write 0x014 .word 0x110), .host (.read 0x00C .word)], t,
    (slot1 State.reset .rc4 (zeros 256)).slots, by decide, by decide +kernel, rfl, ht⟩

theorem witness_SoftResetIsHardwareReset : ∃ s : State, (0x00000007 : Word).getLsbD 0 = true ∧
    s.inputs = .host (.write (s.params.windowBase + 0x008) .word 0x00000007) :: [] ∧ s.status.busy = true :=
  ⟨then_ (busy 1 0 0 0 4) [.host (.write 0x008 .word 0x00000007)], by decide⟩

/-- A command pending whose destination ends at the last byte, and an illegal word pending. -/
theorem witness_ResetAbortsPendingCommand :
    (∃ s : State, s.inputs = .reset :: [] ∧ decode s.params.numSlots s.latch.cmd = .ok .derive ∧ s.status.busy = true ∧
      s.latch.dstAddr.toNat ≤ 0xFFFF ∧ 0xFFFF < s.latch.dstAddr.toNat + nominalLen s.latch .derive ∧
      s.ram.read 0xFFFF = some 7) ∧
    (∃ s : State, s.inputs = .reset :: [] ∧ decode s.params.numSlots s.latch.cmd = .error .reservedOp ∧
      s.status.busy = true ∧ s.ram.read 0xFFFF = some 7) :=
  ⟨⟨then_ (ram (busy 1 0 0 0xFFFC 4) 0xFFFF [7]) [.reset], by decide⟩,
    ⟨then_ (ram (busy 5 0 0 0xFFFC 4) 0xFFFF [7]) [.reset], by decide⟩⟩

theorem witness_PowerCycleForgetsTheRam : ∃ s : State, s.inputs = .powerOn :: [.engine] ∧ s.status.busy = true ∧
    s.ram ≠ [] := ⟨then_ (ram (busy 1 0 0 0 4) 0 [1]) [.powerOn, .engine], by decide⟩

theorem witness_StepKeepsGoodState : ∃ s t : State, s.wf ∧ step s = .next t ∧ s.status.busy = true :=
  ⟨busy 0 0 0 0 0, (busy 0 0 0 0 0).finishOk 0, by decide +kernel, rfl, by decide⟩

theorem witness_RunPseudoInstruction : ∃ s t : State, Instr.nop.wf s.params.numSlots = true ∧ s.status.busy = false ∧
    s.inputs = PseudoOp.events s.params (.run .nop 2) ∧
    exec .nop (State.accept { s with inputs := [] } (encode .nop)) = .next t :=
  ⟨then_ State.reset (PseudoOp.events Params.reference (.run .nop 2)),
    (State.reset.accept (encode .nop)).finishOk 0, by decide, by decide, rfl, rfl⟩

end Sys2Proof.Tests
end

/-! # Proofs of the statements about the state -/

section
/-! Rules of the state's operations: stores, the writes of a command, error codes, resets. -/

namespace Sys2Proof.Machine

/-! ### Stores and the writes of a command -/

/-- A store that does not touch a valid range leaves what is read there (70_reset_and_hazards.md R351). -/
theorem Memory.readBytes_writeBytes_of_not_touches (m : Memory) (r : Range) (p : Params) (a : Nat) (bs : List Byte)
    (hv : r.valid p) (ht : ¬ r.touches p a bs.length) :
    (m.writeBytes a bs).readBytes r.addr r.len = m.readBytes r.addr r.len := by
  refine Memory.readBytes_congr m _ r.addr r.len fun k hk => ?_
  have hout : ¬ (a ≤ r.addr + k ∧ r.addr + k < a + bs.length) := by omega
  rw [Memory.read_writeBytes, if_neg hout]

/-- Where two data RAMs have the same byte, they have the same byte after the same writes. -/
theorem State.applyWrites_read_congr (s s' : State) (w : Writes) (x : Nat) (h : s'.ram.read x = s.ram.read x) :
    (s'.applyWrites w).ram.read x = (s.applyWrites w).ram.read x := by
  obtain ⟨ram, slot, totp⟩ := w
  cases ram with
  | none => exact h
  | some write =>
    obtain ⟨a, bs⟩ := write
    simp only [State.applyWrites_ram_some, Memory.read_writeBytes, h]

/-- The same writes leave the same slots where the slots were the same. -/
theorem State.applyWrites_slots_congr (s s' : State) (w : Writes) (h : s'.slots = s.slots) :
    (s'.applyWrites w).slots = (s.applyWrites w).slots := by simp only [State.applyWrites, h]

/-- A slot that is the same in both blocks is the same after the same writes. -/
theorem State.applyWrites_slot_congr (s s' : State) (w : Writes) (k : Nat) (hlen : s'.slots.length = s.slots.length)
    (hk : s'.slots[k]? = s.slots[k]?) : (s'.applyWrites w).slots[k]? = (s.applyWrites w).slots[k]? := by
  obtain ⟨ram, slot, totp⟩ := w
  cases slot with
  | none => exact hk
  | some write =>
    obtain ⟨j, ks⟩ := write
    simp only [State.applyWrites_slots_some, List.getElem?_set, hlen, hk]

/-- The same writes leave the same TOTP registers where the TOTP registers were the same. -/
theorem State.applyWrites_totp_congr (s s' : State) (w : Writes) (h : s'.totp = s.totp) :
    (s'.applyWrites w).totp = (s.applyWrites w).totp := by simp only [State.applyWrites, h]

/-! ### Error codes -/

/-- Every error has a code that can be reported (60_exceptions.md R300). -/
theorem CmdError.code_le (e : CmdError) : e.code.toNat ≤ 7 := by cases e <;> decide

/-- No error has the code of a completion without error (60_exceptions.md R300). -/
theorem CmdError.code_ne_zero (e : CmdError) : e.code ≠ 0 := by cases e <;> decide

/-! ### Resets of a good state -/

/-- The TOTP registers after a reset are in their ranges (70_reset_and_hazards.md R340). -/
theorem totpReset_wf : TotpRegs.wf { code := 0, last := 0, secs := 0, present := false, matched := false } := by decide

/-- A block after a reset is good, over any good data RAM (70_reset_and_hazards.md R340). -/
theorem State.resetWith_wf (p : Params) (m : Memory) (l : List Event) (r : Option Word) (hp : p.legal) (hm : m.wf)
    (hb : m.within p.bufBytes) : (State.resetWith p m l r).wf := by
  refine ⟨hp, hm, hb, List.length_replicate, fun k hk => ?_, Nat.zero_le _, Nat.zero_le _, totpReset_wf⟩
  rw [List.eq_of_mem_replicate hk]
  exact cleared_wf

/-- Making the nominal destination unwritten keeps the data RAM good (70_reset_and_hazards.md R344). -/
theorem State.ramAfterReset_good (s : State) (hm : s.ram.wf) (hb : s.ram.within s.params.bufBytes) :
    s.ramAfterReset.wf ∧ s.ramAfterReset.within s.params.bufBytes := by
  simp only [State.ramAfterReset]
  split
  · exact ⟨Memory.wf_forget _ _ _ hm, Memory.within_forget _ _ _ _ hb⟩
  · exact ⟨hm, hb⟩

theorem State.hardReset_wf (s : State) (h : s.wf) : s.hardReset.wf := by
  obtain ⟨hp, hm, hb, -⟩ := h
  obtain ⟨hm', hb'⟩ := s.ramAfterReset_good hm hb
  exact State.resetWith_wf _ _ _ _ hp hm' hb'

theorem State.powerCycle_wf (s : State) (h : s.wf) : s.powerCycle.wf := by
  obtain ⟨hp, -⟩ := h
  exact State.resetWith_wf _ _ _ _ hp Memory.wf_nil fun _ hc => absurd hc List.not_mem_nil

end Sys2Proof.Machine
end

section
/-! Rules of the registers and of the host port. -/

namespace Sys2Proof.Machine

/-! ### The register at an offset -/

/-- The map finds a register at its own offset only. -/
theorem Register.offset_of_at? {off : Nat} {r : Register} (h : Register.at? off = some r) : r.offset = off :=
  beq_iff_eq.mp (List.find?_some (p := fun r : Register => r.offset == off) h)

/-- An offset is reserved iff no register is there. -/
theorem Register.at?_eq_none_iff (off : Nat) : Register.at? off = none ↔ ∀ r ∈ Register.all, off ≠ r.offset := by
  simp only [Register.at?, List.find?_eq_none, beq_iff_eq, ne_eq, @eq_comm _ off]

/-- A 32-bit read at an offset of the register window answers what stands there (20_memory.md R84). -/
theorem hostAccess_readOffset (s : State) (off : Nat) (h : off < 0x1000) (h4 : off % 4 = 0) :
    hostAccess s (.read (s.params.windowBase + off) .word) = .next (s.answer (s.readOffset off)) := by
  simp only [hostAccess, hostTarget_register s.params off h h4]

/-- A 32-bit write at an offset of the register window is the write of what stands there (20_memory.md R84). -/
theorem hostAccess_writeOffset (s : State) (off : Nat) (v : Word) (h : off < 0x1000) (h4 : off % 4 = 0) :
    hostAccess s (.write (s.params.windowBase + off) .word v) = .next (s.writeOffset off v) := by
  simp only [hostAccess, hostTarget_register s.params off h h4]

/-! ### CONFIG, KEYSTAT and the time of the latch -/

/-- With legal parameters the three fields of `CONFIG` fit beside each other (10_state.md R37). -/
theorem configWord_toNat (p : Params) (hp : p.legal) :
    (configWord p).toNat = p.pbkdfIter + 256 * p.numSlots + 65536 * p.bufLog2 := by
  obtain ⟨hiter, hslots, hlog, -⟩ := hp
  rw [configWord, BitVec.toNat_ofNat]
  omega

theorem SlotKind.code_lt (k : SlotKind) : k.code < 4 := by cases k <;> decide

/-- Two bits of `KEYSTAT` for each slot. -/
theorem keystatValue_lt (ks : List KeySlot) : keystatValue ks < 4 ^ ks.length := by
  induction ks with
  | nil => simp [keystatValue]
  | cons k ks ih =>
    have hk := k.kind.code_lt
    simp only [keystatValue, List.length_cons, pow_succ]
    omega

/-- The base-4 digits of `KEYSTAT` are the kind codes, 0 from the number of slots on (10_state.md R45). -/
theorem keystatValue_digit (ks : List KeySlot) (k : Nat) :
    keystatValue ks / 4 ^ k % 4 = (ks[k]?.map fun slot => slot.kind.code).getD 0 := by
  induction ks generalizing k with
  | nil => simp [keystatValue]
  | cons slot ks ih =>
    have hslot := slot.kind.code_lt
    cases k with
    | zero =>
      simp only [keystatValue, pow_zero, Nat.div_one, List.getElem?_cons_zero, Option.map_some, Option.getD_some]
      omega
    | succ k =>
      have htail : keystatValue (slot :: ks) / 4 = keystatValue ks := by
        simp only [keystatValue]
        omega
      rw [pow_succ', ← Nat.div_div_eq_div_mul, htail, ih, List.getElem?_cons_succ]

/-- `KEYSTAT` is made of the kinds of the slots alone (10_state.md R45). -/
theorem keystatValue_eq_foldr (ks : List KeySlot) :
    keystatValue ks = (ks.map KeySlot.kind).foldr (fun kind v => kind.code + 4 * v) 0 := by
  induction ks with
  | nil => rfl
  | cons k ks ih => simp only [keystatValue, ih, List.map_cons, List.foldr_cons]

/-- The time of the latch is `TIME_HI` above `TIME_LO` (10_state.md R46). -/
theorem time_eq_or (hi lo : Word) : hi ++ lo = (hi.setWidth 64 <<< 32) ||| lo.setWidth 64 := by
  rw [BitVec.append_def, BitVec.shiftLeftZeroExtend_eq, BitVec.setWidth'_eq]

/-! ### Host accesses -/

theorem RegisterWritten.params {s t : State} (h : RegisterWritten s t) : t.params = s.params := by cases h <;> rfl

theorem RegisterWritten.wf {s t : State} (h : RegisterWritten s t) (hs : s.wf) : t.wf := by
  cases h with
  | reset => exact s.hardReset_wf hs
  | _ => exact hs

/-- What a host read of the data RAM answers as a next state, and when (20_memory.md R80, R93). -/
theorem hostRamRead_eq_next (s t : State) (a n : Nat) :
    hostRamRead s a n = .next t ↔ ¬ s.readHazard a n ∧
      ∃ bytes, s.ram.readBytes a n = some bytes ∧ t = s.answer (BitVec.ofNat 32 (leValue bytes)) := by
  simp only [hostRamRead]
  split_ifs with hz
  · exact iff_of_false nofun fun hn => hn.1 hz
  · cases hr : s.ram.readBytes a n with
    | none => simp
    | some bytes =>
      simp only [hz, not_false_eq_true, true_and, Option.some.injEq, exists_eq_left', Host.Outcome.next.injEq, eq_comm]

/-- What a host write to the data RAM answers as a next state, and when (20_memory.md R80). -/
theorem hostRamWrite_eq_next (s t : State) (a n : Nat) (v : Word) :
    hostRamWrite s a n v = .next t ↔ ¬ s.writeHazard a n ∧
      t = { s with ram := s.ram.writeBytes a (leBytes n v.toNat) } := by
  simp only [hostRamWrite]
  split_ifs with hz
  · exact iff_of_false nofun fun hn => hn.1 hz
  · simp only [hz, not_false_eq_true, true_and, Host.Outcome.next.injEq, eq_comm]

/-- A host access leaves the events that are still to happen. -/
theorem hostAccess_inputs (s t : State) (access : HostAccess) (h : hostAccess s access = .next t) :
    t.inputs = s.inputs := by
  rcases hostAccess_next s t access h with ⟨v, rfl⟩ | hw | ⟨addr, width, a, v, -, -, rfl⟩
  · rfl
  · cases hw <;> rfl
  · rfl

/-- A host access keeps a good state good: a store it makes lies in the data RAM (20_memory.md R84). -/
theorem hostAccess_wf (s t : State) (access : HostAccess) (hs : s.wf) (h : hostAccess s access = .next t) :
    t.wf ∧ t.params = s.params := by
  rcases hostAccess_next s t access h with ⟨v, rfl⟩ | hw | ⟨addr, width, a, v, ha, -, rfl⟩
  · exact ⟨hs, rfl⟩
  · exact ⟨hw.wf hs, hw.params⟩
  · obtain ⟨hp, hm, hb, hrest⟩ := hs
    have hin : a + (leBytes width.bytes v).length ≤ s.params.bufBytes := by
      rw [leBytes_length]
      exact hostTarget_ram s.params addr width a hp ha
    exact ⟨⟨hp, Memory.wf_writeBytes _ _ _ hm, Memory.within_writeBytes _ _ _ _ hb hin, hrest⟩, rfl⟩

end Sys2Proof.Machine
end

section
/-! Rules of the commands, the engine and runs. -/

namespace Sys2Proof.Machine

/-! ### The families of commands -/

theorem writesSlot_eq_false {i : Instr}
    (h : ∀ slot kind, i ≠ .deriveKey slot kind ∧ i ≠ .loadKey slot kind ∧ i ≠ .clearKey slot) : writesSlot i = false := by
  cases i with
  | deriveKey slot kind => simpa using h slot kind
  | loadKey slot kind => simpa using h slot kind
  | clearKey slot => simpa using h slot .rc4
  | _ => rfl

theorem writesTotp_eq_false {i : Instr} (h : ∀ b, i ≠ .totpGen ∧ i ≠ .totpValidate b) : writesTotp i = false := by
  cases i with
  | totpGen => simpa using h false
  | totpValidate b => simpa using h b
  | _ => rfl

theorem storesRam_eq_false {i : Instr}
    (h : ∀ slot, i ≠ .derive ∧ i ≠ .rc4 slot ∧ i ≠ .xteaEnc slot ∧ i ≠ .xteaDec slot ∧ i ≠ .xteaEcbEnc slot ∧
      i ≠ .xteaEcbDec slot) : storesRam i = false := by
  cases i with
  | derive => simpa using h 0
  | rc4 slot => simpa using h slot
  | xteaEnc slot => simpa using h slot
  | xteaDec slot => simpa using h slot
  | xteaEcbEnc slot => simpa using h slot
  | xteaEcbDec slot => simpa using h slot
  | _ => rfl

/-! ### What a command that answers a next state leaves -/

section
variable {i : Instr} {s t : State} (h : exec i s = .next t)
include h

theorem exec_keeps : t.params = s.params ∧ t.operands = s.operands ∧ t.cmd = s.cmd ∧ t.latch = s.latch ∧
    t.ctrl = s.ctrl ∧ t.inputs = s.inputs ∧ t.reply = s.reply := by
  rcases exec_next i s t h with ⟨w, n, -, rfl⟩ | ⟨e, -, rfl⟩
  · exact ⟨rfl, rfl, rfl, rfl, rfl, rfl, rfl⟩
  · exact ⟨rfl, rfl, rfl, rfl, rfl, rfl, rfl⟩

/-- `STATUS` after a completion: an error sets `ERR`, and no completion clears it (30_encoding.md R121). -/
theorem exec_status : t.status =
    { busy := false, done := true, err := s.status.err || decide (t.errcode ≠ 0), overrun := s.status.overrun } := by
  rcases exec_next i s t h with ⟨w, n, -, rfl⟩ | ⟨e, -, rfl⟩
  · simp only [State.finishOk_status, State.finishOk_errcode, State.applyWrites_status, Status.completed, ne_eq,
      not_true_eq_false, decide_false, Bool.or_false]
  · have hcode : e.code ≠ 0 := e.code_ne_zero
    simp only [State.finishError_status, State.finishError_errcode, Status.failed, hcode, ne_eq, not_false_eq_true,
      decide_true, Bool.or_true]

theorem exec_slots_of_not_writesSlot (hi : writesSlot i = false) : t.slots = s.slots := by
  rcases exec_next i s t h with ⟨w, n, hr, rfl⟩ | ⟨e, -, rfl⟩
  · simp only [State.finishOk_slots, State.applyWrites, (resultOf_ok i s w n hr).slot_family hi]
  · rfl

theorem exec_totp_of_not_writesTotp (hi : writesTotp i = false) : t.totp = s.totp := by
  rcases exec_next i s t h with ⟨w, n, hr, rfl⟩ | ⟨e, -, rfl⟩
  · simp only [State.finishOk_totp, State.applyWrites, (resultOf_ok i s w n hr).totp_family hi]
  · rfl

theorem exec_ram_of_not_storesRam (hi : storesRam i = false) : t.ram = s.ram := by
  rcases exec_next i s t h with ⟨w, n, hr, rfl⟩ | ⟨e, -, rfl⟩
  · simp only [State.finishOk_ram, State.applyWrites, (resultOf_ok i s w n hr).ram_family hi]
  · rfl

end

/-- The good writes of a command leave every slot it does not name. -/
theorem GoodWrites.slots_unnamed {i : Instr} {s : State} {w : Writes} {n : Nat} (h : GoodWrites i s w n) (k : SlotIx)
    (hk : i.slot? ≠ some k) :
    (s.applyWrites w).slots.length = s.slots.length ∧ (s.applyWrites w).slots[k.val]? = s.slots[k.val]? := by
  obtain ⟨ram, slot, totp⟩ := w
  cases slot with
  | none => exact ⟨rfl, rfl⟩
  | some write =>
    obtain ⟨j, ks⟩ := write
    obtain ⟨hj, -⟩ := h.slot j ks rfl
    have hne : j.val ≠ k.val := fun heq => hk (hj.trans (congrArg some (Fin.ext heq)))
    exact ⟨List.length_set, List.getElem?_set_ne hne⟩

/-- A command's result is the same whatever stands in the slots it does not name (10_state.md R49). -/
theorem resultOf_otherSlots (i : Instr) (s : State) (other : List KeySlot)
    (h : ∀ k : SlotIx, i.slot? = some k → other[k.val]? = s.slots[k.val]?) :
    resultOf i { s with slots := other } = resultOf i s := by
  refine resultOf_congr i s _ rfl rfl rfl (fun k hk => ?_) (fun _ => rfl)
  simp only [State.slot, List.getD_eq_getElem?_getD, h k hk]

/-! ### A completion keeps a good state good -/

theorem State.finishError_wf (s : State) (e : CmdError) (h : s.wf) : (s.finishError e).wf := by
  obtain ⟨hp, hm, hb, hl, hk, -, -, ht⟩ := h
  exact ⟨hp, hm, hb, hl, hk, e.code_le, Nat.zero_le _, ht⟩

/-- The good writes of a command keep the data RAM good. -/
theorem GoodWrites.ram_good {i : Instr} {s : State} {w : Writes} {n : Nat} (h : GoodWrites i s w n) (hm : s.ram.wf)
    (hb : s.ram.within s.params.bufBytes) :
    (s.applyWrites w).ram.wf ∧ (s.applyWrites w).ram.within s.params.bufBytes ∧ n ≤ s.params.bufBytes := by
  obtain ⟨ram, slot, totp⟩ := w
  cases ram with
  | none => exact ⟨hm, hb, (h.ram_none rfl).le.trans (Nat.zero_le _)⟩
  | some write =>
    obtain ⟨a, bs⟩ := write
    obtain ⟨-, hl, hin, -⟩ := h.ram_some a bs rfl
    exact ⟨Memory.wf_writeBytes _ _ _ hm, Memory.within_writeBytes _ _ _ _ hb (hl ▸ hin), by omega⟩

/-- The good writes of a command keep the number of slots, and every slot well-formed. -/
theorem GoodWrites.slots_good {i : Instr} {s : State} {w : Writes} {n : Nat} (h : GoodWrites i s w n)
    (hk : ∀ k ∈ s.slots, k.wf) :
    (s.applyWrites w).slots.length = s.slots.length ∧ ∀ k ∈ (s.applyWrites w).slots, k.wf := by
  obtain ⟨ram, slot, totp⟩ := w
  cases slot with
  | none => exact ⟨rfl, hk⟩
  | some write =>
    obtain ⟨j, ks⟩ := write
    obtain ⟨-, hks⟩ := h.slot j ks rfl
    refine ⟨List.length_set, fun k hmem => ?_⟩
    rcases List.mem_or_eq_of_mem_set hmem with hmem | rfl
    · exact hk k hmem
    · exact hks

/-- The good writes of a command keep the TOTP registers in their ranges. -/
theorem GoodWrites.totp_good {i : Instr} {s : State} {w : Writes} {n : Nat} (h : GoodWrites i s w n) (ht : s.totp.wf) :
    (s.applyWrites w).totp.wf := by
  obtain ⟨ram, slot, totp⟩ := w
  cases totp with
  | none => exact ht
  | some r => exact h.totp r rfl ht

/-- A completion without error keeps a good state good. -/
theorem GoodWrites.finishOk_wf {i : Instr} {s : State} {w : Writes} {n : Nat} (h : GoodWrites i s w n) (hs : s.wf) :
    ((s.applyWrites w).finishOk n).wf := by
  obtain ⟨hp, hm, hb, hl, hk, -, -, ht⟩ := hs
  obtain ⟨hm', hb', hn⟩ := h.ram_good hm hb
  obtain ⟨hl', hk'⟩ := h.slots_good hk
  have hlen : (BitVec.ofNat 32 n).toNat ≤ s.params.bufBytes := by
    rw [BitVec.toNat_ofNat]
    exact (Nat.mod_le _ _).trans hn
  exact ⟨hp, hm', hb', hl'.trans hl, hk', Nat.zero_le _, hlen, h.totp_good ht⟩

/-! ### The pending command's result -/

/-- The result that the pending command completes with; an illegal word's is an error (30_encoding.md R116). -/
def pendingResult (s : State) : CmdResult :=
  match decode s.params.numSlots s.latch.cmd with
  | .ok i => resultOf i s
  | .error _ => .error .illegalCommand

/-- Performing the pending command is the completion of its result. -/
theorem perform_eq_complete (s : State) : perform s = s.complete (pendingResult s) := by
  simp only [perform, pendingResult]
  cases decode s.params.numSlots s.latch.cmd with
  | ok i => exact exec_eq_complete i s
  | error e => rfl

/-- What every completion leaves in `STATUS` (30_encoding.md R121). -/
theorem perform_status {s t : State} (h : perform s = .next t) :
    t.status.busy = false ∧ t.status.done = true ∧ (t.errcode ≠ 0 → t.status.err = true) ∧
      t.status.overrun = s.status.overrun := by
  rcases perform_next s t h with ⟨i, w, n, -, -, rfl⟩ | ⟨e, rfl⟩
  · exact ⟨rfl, rfl, fun hne => absurd rfl hne, rfl⟩
  · exact ⟨rfl, rfl, fun _ => rfl, rfl⟩

/-! ### Steps and runs -/

/-- The engine's turn keeps a good state good. -/
theorem engineTurn_wf (s t : State) (hs : s.wf) (h : engineTurn s = .next t) : t.wf ∧ t.params = s.params := by
  rcases engineTurn_next s t h with rfl | ⟨-, hp⟩
  · exact ⟨hs, rfl⟩
  · rcases perform_next s t hp with ⟨i, w, n, -, hr, rfl⟩ | ⟨e, rfl⟩
    · exact ⟨(resultOf_ok i s w n hr).finishOk_wf hs, rfl⟩
    · exact ⟨s.finishError_wf e hs, rfl⟩

/-- Every event keeps a good state good. -/
theorem happen_wf (s t : State) (e : Event) (hs : s.wf) (h : happen s e = .next t) : t.wf ∧ t.params = s.params := by
  cases e with
  | engine => exact engineTurn_wf s t hs h
  | host access => exact hostAccess_wf s t access hs h
  | engineAndStatusWrite v =>
    have hw := writeRegister_written s .status v
    obtain ⟨ht, hp⟩ := engineTurn_wf _ t (hw.wf hs) h
    exact ⟨ht, hp.trans hw.params⟩
  | reset =>
    cases h
    exact ⟨s.hardReset_wf hs, rfl⟩
  | powerOn =>
    cases h
    exact ⟨s.powerCycle_wf hs, rfl⟩

/-- A step whose next event is a host access is that access. -/
theorem step_host (s : State) (access : HostAccess) (rest : List Event) (h : s.inputs = .host access :: rest) :
    step s = hostAccess { s with inputs := rest } access := by simp only [step, nextEvent, h, happen]

/-- A run that begins with a step to `u` goes on from `u`. -/
theorem run_succ_of_step {s u : State} (k : Nat) (h : step s = .next u) :
    Sys2Proof.core.run (k + 1) s = Sys2Proof.core.run k u := by
  have hs : Sys2Proof.core.step s = .next u := h
  simp only [Host.Core.run, hs]

/-- A run of one more step that ends in a state begins with a step that answers one. -/
theorem run_succ_next (k : Nat) (s t : State) (h : Sys2Proof.core.run (k + 1) s = .next t) :
    ∃ u, step s = .next u ∧ Sys2Proof.core.run k u = .next t := by
  simp only [Host.Core.run] at h
  split at h
  · exact ⟨_, ‹_›, h⟩
  · cases h
  · cases h

end Sys2Proof.Machine
end

section
/-! The pending command does not see the host: the blocks before and after an allowed host access agree on all that the
command's completion depends on. -/

namespace Sys2Proof.Machine

/-- The two blocks agree on all that the pending command's result depends on (10_state.md R47, R49). -/
structure SamePending (s s' : State) : Prop where
  params : s'.params = s.params
  latch : s'.latch = s.latch
  slots : s'.slots = s.slots
  totp : s'.totp = s.totp
  source : s.latch.source.valid s.params →
    s'.ram.readBytes s.latch.source.addr s.latch.source.len = s.ram.readBytes s.latch.source.addr s.latch.source.len

theorem SamePending.pendingResult_eq {s s' : State} (h : SamePending s s') : pendingResult s' = pendingResult s := by
  simp only [pendingResult, h.params, h.latch]
  cases decode s.params.numSlots s.latch.cmd with
  | ok i => exact resultOf_congr i s s' h.params h.latch h.totp (fun k _ => by rw [State.slot, State.slot, h.slots]) h.source
  | error e => rfl

/-- Blocks that agree on what the pending command depends on complete it alike. -/
theorem SamePending.perform_next {s s' t : State} (h : SamePending s s') (hp : perform s = .next t) :
    ∃ t', perform s' = .next t' ∧ t'.slots = t.slots ∧ t'.totp = t.totp ∧ t'.errcode = t.errcode ∧
      t'.resultLen = t.resultLen ∧ (∀ x, s'.ram.read x = s.ram.read x → t'.ram.read x = t.ram.read x) := by
  rw [perform_eq_complete] at hp
  rw [perform_eq_complete, h.pendingResult_eq]
  rcases complete_next s t _ hp with ⟨w, n, hr, rfl⟩ | ⟨e, hr, rfl⟩
  · exact ⟨(s'.applyWrites w).finishOk n, by rw [hr, State.complete], s.applyWrites_slots_congr s' w h.slots,
      s.applyWrites_totp_congr s' w h.totp, rfl, rfl, s.applyWrites_read_congr s' w⟩
  · exact ⟨s'.finishError e, by rw [hr, State.complete], h.slots, h.totp, rfl, rfl, fun _ hx => hx⟩

/-- A register write that leaves a busy block busy is neither an issue nor a reset, so the pending command does not see it
(10_state.md R46, R47). -/
theorem RegisterWritten.samePending {s s' : State} (h : RegisterWritten s s') (hb : s.status.busy = true)
    (hb' : s'.status.busy = true) : SamePending s s' := by
  cases h with
  | ignored => exact ⟨rfl, rfl, rfl, rfl, fun _ => rfl⟩
  | operands o => exact ⟨rfl, rfl, rfl, rfl, fun _ => rfl⟩
  | ctrl c => exact ⟨rfl, rfl, rfl, rfl, fun _ => rfl⟩
  | status v => exact ⟨rfl, rfl, rfl, rfl, fun _ => rfl⟩
  | dropped => exact ⟨rfl, rfl, rfl, rfl, fun _ => rfl⟩
  | accepted w hidle => exact absurd hb (by simp [hidle])
  | reset => exact absurd hb' (by simp [State.hardReset, State.resetWith])

/-- A host access that is allowed while a command is pending and leaves it pending changes nothing that the command depends on
(20_memory.md R95, R97). -/
theorem hostAccess_samePending (s s' : State) (access : HostAccess) (hb : s.status.busy = true)
    (h : hostAccess s access = .next s') (hb' : s'.status.busy = true) : SamePending s s' := by
  rcases hostAccess_next s s' access h with ⟨v, rfl⟩ | hw | ⟨addr, width, a, v, -, hz, rfl⟩
  · exact ⟨rfl, rfl, rfl, rfl, fun _ => rfl⟩
  · exact hw.samePending hb hb'
  · have hsrc : ¬ s.latch.source.touches s.params a width.bytes := fun ht => hz ⟨hb, .inl ht⟩
    refine ⟨rfl, rfl, rfl, rfl, fun hv => ?_⟩
    exact s.ram.readBytes_writeBytes_of_not_touches _ s.params a _ hv (by rwa [leBytes_length])

/-- Settles O52: the access keeps what the pending command depends on, so the command completes alike. -/
theorem pendingCommandIgnoresTheHost : Obligations.PendingCommandIgnoresTheHost := by
  intro s s' t access hb hs' hb' ht
  exact (hostAccess_samePending s s' access hb hs' hb').perform_next ht

end Sys2Proof.Machine
end

section
/-! Key bytes are invisible: host accesses keep two blocks alike that differ only in the key bytes of their slots. -/

namespace Sys2Proof.Machine

/-- The two blocks differ at most in the key bytes of their slots. -/
def DifferInKeys (s s' : State) : Prop :=
  ∃ other, s' = { s with slots := other } ∧ other.map KeySlot.kind = s.slots.map KeySlot.kind

theorem DifferInKeys.readRegister {s s' : State} (h : DifferInKeys s s') (r : Register) :
    s'.readRegister r = s.readRegister r := by
  obtain ⟨other, rfl, hk⟩ := h
  cases r with
  | keystat => simp only [State.readRegister, keystatValue_eq_foldr, hk]
  | _ => rfl

theorem DifferInKeys.readOffset {s s' : State} (h : DifferInKeys s s') (off : Nat) :
    s'.readOffset off = s.readOffset off := by
  simp only [State.readOffset]
  cases Register.at? off with
  | none => rfl
  | some r => exact h.readRegister r

theorem DifferInKeys.writeRegister {s s' : State} (h : DifferInKeys s s') (r : Register) (v : Word) :
    DifferInKeys (s.writeRegister r v) (s'.writeRegister r v) := by
  obtain ⟨other, rfl, hk⟩ := h
  cases r with
  | ctrl =>
    simp only [State.writeRegister, State.writeCtrl]
    split
    · exact ⟨_, rfl, rfl⟩
    · exact ⟨other, rfl, hk⟩
  | cmd =>
    simp only [State.writeRegister, State.writeCmd]
    split
    · exact ⟨other, rfl, hk⟩
    · exact ⟨other, rfl, hk⟩
  | _ => exact ⟨other, rfl, hk⟩

theorem DifferInKeys.writeOffset {s s' : State} (h : DifferInKeys s s') (off : Nat) (v : Word) :
    DifferInKeys (s.writeOffset off v) (s'.writeOffset off v) := by
  simp only [State.writeOffset]
  cases Register.at? off with
  | none => exact h
  | some r => exact h.writeRegister r v

theorem DifferInKeys.answer {s s' : State} (h : DifferInKeys s s') (v : Word) :
    DifferInKeys (s.answer v) (s'.answer v) := by
  obtain ⟨other, rfl, hk⟩ := h
  exact ⟨other, rfl, hk⟩

/-- A host read of the data RAM sees no slot. -/
theorem DifferInKeys.hostRamRead_next {s s' t : State} (h : DifferInKeys s s') (a n : Nat)
    (ht : hostRamRead s a n = .next t) : ∃ t', hostRamRead s' a n = .next t' ∧ DifferInKeys t t' := by
  obtain ⟨hz, bytes, hr, rfl⟩ := (hostRamRead_eq_next s t a n).mp ht
  refine ⟨s'.answer _, (hostRamRead_eq_next s' _ a n).mpr ?_, h.answer (BitVec.ofNat 32 (leValue bytes))⟩
  obtain ⟨other, rfl, -⟩ := h
  exact ⟨hz, bytes, hr, rfl⟩

/-- A host write to the data RAM sees no slot. -/
theorem DifferInKeys.hostRamWrite_next {s s' t : State} (h : DifferInKeys s s') (a n : Nat) (v : Word)
    (ht : hostRamWrite s a n v = .next t) : ∃ t', hostRamWrite s' a n v = .next t' ∧ DifferInKeys t t' := by
  obtain ⟨hz, rfl⟩ := (hostRamWrite_eq_next s t a n v).mp ht
  obtain ⟨other, rfl, hk⟩ := h
  exact ⟨_, (hostRamWrite_eq_next _ _ a n v).mpr ⟨hz, rfl⟩, other, rfl, hk⟩

/-- One host access answers blocks that differ only in key bytes alike (10_state.md R50). -/
theorem DifferInKeys.hostAccess_next {s s' t : State} (h : DifferInKeys s s') (access : HostAccess)
    (ht : hostAccess s access = .next t) : ∃ t', hostAccess s' access = .next t' ∧ DifferInKeys t t' := by
  have hp : s'.params = s.params := by
    obtain ⟨other, rfl, -⟩ := h
    rfl
  cases access with
  | read addr width =>
    simp only [hostAccess, hp] at ht ⊢
    generalize hostTarget s.params addr width = target at ht ⊢
    cases target with
    | outside =>
      cases ht
      exact ⟨s', rfl, h⟩
    | register off =>
      cases ht
      exact ⟨_, rfl, h.readOffset off ▸ h.answer _⟩
    | ram a => exact h.hostRamRead_next a _ ht
    | busError => cases ht
  | write addr width v =>
    simp only [hostAccess, hp] at ht ⊢
    generalize hostTarget s.params addr width = target at ht ⊢
    cases target with
    | outside =>
      cases ht
      exact ⟨s', rfl, h⟩
    | register off =>
      cases ht
      exact ⟨_, rfl, h.writeOffset off v⟩
    | ram a => exact h.hostRamWrite_next a _ v ht
    | busError => cases ht

/-- Runs of host accesses answer blocks that differ only in key bytes alike. -/
theorem DifferInKeys.run_next {accesses : List HostAccess} {s s' t : State} (h : DifferInKeys s s')
    (hi : s.inputs = accesses.map Event.host) (ht : Sys2Proof.core.run accesses.length s = .next t) :
    ∃ t', Sys2Proof.core.run accesses.length s' = .next t' ∧ DifferInKeys t t' := by
  induction accesses generalizing s s' with
  | nil =>
    cases ht
    exact ⟨s', rfl, h⟩
  | cons access rest ih =>
    obtain ⟨u, hu, hrun⟩ := run_succ_next rest.length s t ht
    have hi' : s'.inputs = .host access :: rest.map Event.host := by
      obtain ⟨other, rfl, -⟩ := h
      exact hi
    have hrest : DifferInKeys { s with inputs := rest.map Event.host } { s' with inputs := rest.map Event.host } := by
      obtain ⟨other, rfl, hk⟩ := h
      exact ⟨other, rfl, hk⟩
    rw [step_host s access _ hi] at hu
    obtain ⟨u', hu', hk⟩ := hrest.hostAccess_next access hu
    obtain ⟨t', ht', hkt⟩ := ih hk (hostAccess_inputs _ u access hu) hrun
    exact ⟨t', (run_succ_of_step rest.length ((step_host s' access _ hi').trans hu')).trans ht', hkt⟩

/-- Settles O53, by induction on the accesses. -/
theorem keyBytesAreInvisible : Obligations.KeyBytesAreInvisible := by
  intro accesses s t other hk hi ht
  have hd : DifferInKeys s { s with slots := other } := ⟨other, rfl, hk⟩
  obtain ⟨t', hrun, other', rfl, hk'⟩ := hd.run_next hi ht
  exact ⟨_, hrun, rfl, hk'⟩

end Sys2Proof.Machine
end

section
/-! The statements that the rules above settle: the invariant, the frames of the commands, the register window. -/

namespace Sys2Proof.Machine

/-! ### The invariant -/

/-- Settles O59: a step is the engine's turn or the next event, and each keeps a good state good. -/
theorem stepKeepsGoodState : Obligations.StepKeepsGoodState := by
  intro s t hs h
  rcases step_next s t h with ⟨-, ht⟩ | ⟨e, rest, -, ht⟩
  · exact engineTurn_wf s t hs ht
  · exact happen_wf { s with inputs := rest } t e hs ht

/-! ### Frames -/

/-- Settles O26: the fields that no command assigns, `STATUS`, and the three families. -/
theorem commandFrame : Obligations.CommandFrame := by
  intro i s t h
  obtain ⟨hparams, hoperands, hcmd, hlatch, hctrl, hinputs, hreply⟩ := exec_keeps h
  exact ⟨hparams, hoperands, hcmd, hlatch, hctrl, hinputs, hreply, exec_status h,
    fun hi => exec_slots_of_not_writesSlot h (writesSlot_eq_false hi),
    fun hi => exec_totp_of_not_writesTotp h (writesTotp_eq_false hi),
    fun hi => exec_ram_of_not_storesRam h (storesRam_eq_false hi)⟩

/-- Settles O28: only a completion without error writes a slot, and its writes are good. -/
theorem unnamedSlotNotWritten : Obligations.UnnamedSlotNotWritten := by
  intro i s t k h hk
  rcases exec_next i s t h with ⟨w, n, hr, rfl⟩ | ⟨e, -, rfl⟩
  · exact (resultOf_ok i s w n hr).slots_unnamed k hk
  · exact ⟨rfl, rfl⟩

/-- Settles O29: the results agree, and so do the completions but for the slots. -/
theorem unnamedSlotNotRead : Obligations.UnnamedSlotNotRead := by
  intro i s t other hlen hnamed h
  rw [exec_eq_complete, resultOf_otherSlots i s other hnamed]
  rcases exec_next i s t h with ⟨w, n, hr, rfl⟩ | ⟨e, hr, rfl⟩
  · exact ⟨(State.applyWrites { s with slots := other } w).finishOk n, by rw [hr, State.complete], rfl,
      fun k hk => State.applyWrites_slot_congr s _ w k.val hlen (hnamed k hk)⟩
  · exact ⟨State.finishError { s with slots := other } e, by rw [hr, State.complete], rfl, hnamed⟩

/-! ### Registers -/

/-- Settles O40: the fields, cut from the sum they make. -/
theorem configFields : Obligations.ConfigFields := by
  refine ⟨fun s hp => ?_, by decide⟩
  have hval : (s.readRegister .config).toNat = _ := configWord_toNat s.params hp
  obtain ⟨hiter, hslots, hlog, -⟩ := hp
  have hbuf : (s.readRegister .config).toNat / 65536 % 32 = s.params.bufLog2 := by omega
  exact ⟨by omega, by omega, by omega, by rw [hbuf, Params.bufBytes], by omega⟩

/-- Settles O41: at the offset of each register the map answers it, and at every other offset 0. -/
theorem registerReads : Obligations.RegisterReads := by
  intro s off h h4
  rw [hostAccess_readOffset s off h h4]
  cases hr : Register.at? off with
  | some r =>
    obtain rfl := Register.offset_of_at? hr
    cases r <;> rfl
  | none =>
    have hne := (Register.at?_eq_none_iff off).mp hr
    simp only [Register.all, Register.offset, List.forall_mem_cons] at hne
    simp only [State.readOffset, hr, State.answer, hne, if_false]

/-- Settles O42: two bits of a word are a base-4 digit of its value. -/
theorem keystatBits : Obligations.KeystatBits := by
  intro s k hlen
  have hlt : keystatValue s.slots < 2 ^ 32 :=
    (keystatValue_lt s.slots).trans_le (Nat.pow_le_pow_right (show 0 < 4 by decide) hlen)
  apply BitVec.eq_of_toNat_eq
  rw [State.readRegister, BitVec.extractLsb'_toNat, BitVec.toNat_ofNat, Nat.mod_eq_of_lt hlt,
    Nat.shiftRight_eq_div_pow, pow_mul]
  refine (keystatValue_digit s.slots k.val).trans ?_
  cases s.slots[k.val]? with
  | none => rfl
  | some slot =>
    obtain ⟨kind, key⟩ := slot
    cases kind <;> rfl

/-- Settles O43: of the registers at the offsets left, each operand register stores the word and each other ignores it. -/
theorem registerWrites : Obligations.RegisterWrites := by
  intro s v off h h4 hctrl hstatus hcmd
  rw [hostAccess_writeOffset s off v h h4]
  cases hr : Register.at? off with
  | some r =>
    obtain rfl := Register.offset_of_at? hr
    cases r with
    | ctrl => exact absurd rfl hctrl
    | status => exact absurd rfl hstatus
    | cmd => exact absurd rfl hcmd
    | _ => rfl
  | none =>
    have hne := (Register.at?_eq_none_iff off).mp hr
    simp only [Register.all, Register.offset, List.forall_mem_cons] at hne
    simp only [State.writeOffset, hr, hne, if_false]

/-- Settles O39: `ID` is at offset 0 and read-only. -/
theorem idIsConstant : Obligations.IdIsConstant := fun s v =>
  ⟨hostAccess_readOffset s 0 (by decide) rfl, hostAccess_writeOffset s 0 v (by decide) rfl⟩

/-- Settles O44: without `SRST` the write is that of the enables alone. -/
theorem ctrlWrite : Obligations.CtrlWrite := by
  intro s v hv
  have hw : s.writeOffset 0x008 v = { s with ctrl := Ctrl.ofWord v } := by
    show s.writeCtrl v = _
    rw [State.writeCtrl, hv]
    rfl
  rw [hostAccess_writeOffset s 0x008 v (by decide) rfl, hw, Ctrl.ofWord]

/-- Settles O45: a 1 clears its bit, and `BUSY` is read-only. -/
theorem statusWriteOneToClear : Obligations.StatusWriteOneToClear := fun s v =>
  hostAccess_writeOffset s 0x00C v (by decide) rfl

/-- Settles O46: the write at `CMD` is accepted or dropped as `BUSY` says. -/
theorem cmdWriteAcceptedOrDropped : Obligations.CmdWriteAcceptedOrDropped := by
  intro s w
  have hw : hostAccess s (.write (s.params.windowBase + 0x014) .word w) = .next (s.writeCmd w) :=
    hostAccess_writeOffset s 0x014 w (by decide) rfl
  rw [hw, State.writeCmd, ← time_eq_or]
  refine ⟨fun hidle => ?_, fun hbusy => ?_⟩
  · simp only [hidle, Bool.false_eq_true, if_false, State.accept, Status.issued]
  · simp only [hbusy, if_true, State.drop, Status.dropped]

/-- Settles O48: the completion comes after the write has cleared its bits. -/
theorem completionWinsOverStatusWrite : Obligations.CompletionWinsOverStatusWrite := by
  intro s t v rest hbusy hi h
  have hp : perform (State.writeRegister { s with inputs := rest } .status v) = .next t := by
    simpa only [step, nextEvent, hi, happen, engineTurn, State.writeRegister, Status.clearOnes, hbusy, if_true] using h
  exact perform_status hp

end Sys2Proof.Machine
end

section
/-! Rules for the family of the data RAM: the bytes a command stores, the order of `RANGE`, host accesses to the RAM. -/

namespace Sys2Proof.Machine

/-! ### The bytes a command stores -/

/-- A command that writes nothing has good writes. -/
theorem GoodWrites.nothing (i : Instr) (s : State) : GoodWrites i s {} 0 :=
  ⟨fun _ => rfl, nofun, nofun, nofun, fun _ => rfl, fun _ => rfl, fun _ => rfl⟩

section
variable {i : Instr} {s : State} {w : Writes} {n : Nat} (h : GoodWrites i s w n)
include h

theorem GoodWrites.read_outside (x : Nat) (hx : x < s.latch.dstAddr.toNat ∨ s.latch.dstAddr.toNat + n ≤ x) :
    (s.applyWrites w).ram.read x = s.ram.read x := by
  obtain ⟨ram, slot, totp⟩ := w
  cases ram with
  | none => rfl
  | some write =>
    obtain ⟨a, bs⟩ := write
    obtain ⟨ha, hl, -, -⟩ := h.ram_some a bs rfl
    rw [State.applyWrites_ram_some, Memory.read_writeBytes, if_neg (by omega)]

theorem GoodWrites.read_inside (x : Nat) (hlo : s.latch.dstAddr.toNat ≤ x) (hhi : x < s.latch.dstAddr.toNat + n) :
    (s.applyWrites w).ram.read x ≠ none := by
  obtain ⟨ram, slot, totp⟩ := w
  cases ram with
  | none =>
    have hn : n = 0 := h.ram_none rfl
    omega
  | some write =>
    obtain ⟨a, bs⟩ := write
    obtain ⟨ha, hl, -, -⟩ := h.ram_some a bs rfl
    rw [State.applyWrites_ram_some, Memory.read_writeBytes, if_pos (by omega), ne_eq, List.getElem?_eq_none_iff]
    omega

/-- What a command stores lies in the data RAM and within its nominal destination (70_reset_and_hazards.md R352). -/
theorem GoodWrites.bounds :
    s.latch.dstAddr.toNat + n ≤ max s.params.bufBytes s.latch.dstAddr.toNat ∧ n ≤ nominalLen s.latch i := by
  obtain ⟨ram, slot, totp⟩ := w
  cases ram with
  | none =>
    obtain rfl : n = 0 := h.ram_none rfl
    exact ⟨le_max_right _ _, Nat.zero_le _⟩
  | some write =>
    obtain ⟨a, bs⟩ := write
    obtain ⟨rfl, -, hin, hlen⟩ := h.ram_some a bs rfl
    exact ⟨hin.trans (le_max_left _ _), hlen⟩

/-- The number of bytes stored fits in `RESULT_LEN` (10_state.md R42). -/
theorem GoodWrites.toNat_ofNat (hp : s.params.legal) : (BitVec.ofNat 32 n).toNat = n := by
  obtain ⟨-, hbuf⟩ := bufBytes_bounds s.params hp
  obtain ⟨hin, -⟩ := h.bounds
  rw [BitVec.toNat_ofNat, Nat.mod_eq_of_lt (by omega)]

end

/-- The data RAM after a command is that after good writes of `RESULT_LEN` bytes; an error writes nothing. -/
theorem exec_stores (i : Instr) (s t : State) (hp : s.params.legal) (h : exec i s = .next t) :
    ∃ w, GoodWrites i s w t.resultLen.toNat ∧ t.ram = (s.applyWrites w).ram := by
  rcases exec_next i s t h with ⟨w, n, hr, rfl⟩ | ⟨e, -, rfl⟩
  · have hw := resultOf_ok i s w n hr
    refine ⟨w, ?_, rfl⟩
    rwa [State.finishOk_resultLen, hw.toNat_ofNat hp]
  · exact ⟨{}, .nothing i s, rfl⟩

/-! ### `RANGE` (20_memory.md R90, 60_exceptions.md R303) -/

/-- A command whose result is an error completes with it. -/
theorem exec_of_error {i : Instr} {s : State} {e : CmdError} (h : resultOf i s = .error e) :
    exec i s = .next (s.finishError e) := by rw [exec_eq_complete, h, State.complete]

section
variable {s : State}

theorem runDerive_eq_range
    (h : ¬ s.latch.source.valid s.params ∨ ¬ (s.latch.dest s.latch.outLen.toNat).valid s.params) :
    runDerive s = .error .range := by rw [runDerive, ← ite_or, if_pos h]

theorem runDeriveKey_eq_range (slot : SlotIx) (kind : KeyKind) (h : ¬ s.latch.source.valid s.params) :
    runDeriveKey slot kind s = .error .range := by rw [runDeriveKey, if_pos h]

theorem runLoadKey_eq_range (slot : SlotIx) (kind : KeyKind) (h : ¬ s.latch.source.valid s.params) :
    runLoadKey slot kind s = .error .range := by rw [runLoadKey, if_pos h]

theorem runTotpGen_eq_range (h : ¬ s.latch.source.valid s.params ∨ s.latch.time.toNat < 60) :
    runTotpGen s = .error .range := by rw [runTotpGen, ← ite_or, if_pos h]

variable {slot : SlotIx}

theorem runRc4_eq_range (hk : (s.slot slot).kind = .rc4)
    (h : ¬ s.latch.source.valid s.params ∨ ¬ (s.latch.dest s.latch.srcLen.toNat).valid s.params) :
    runRc4 slot s = .error .range := by rw [runRc4, if_neg (not_not.mpr hk), ← ite_or, if_pos h]

theorem runXteaEnc_eq_range (hk : (s.slot slot).kind = .xtea)
    (h : ¬ s.latch.source.valid s.params ∨ ¬ (s.latch.dest (framedLen s.latch.srcLen.toNat)).valid s.params) :
    runXteaEnc slot s = .error .range := by rw [runXteaEnc, if_neg (not_not.mpr hk), ← ite_or, if_pos h]

theorem runXteaDec_eq_range (hk : (s.slot slot).kind = .xtea) (h : ¬ s.latch.source.valid s.params) :
    runXteaDec slot s = .error .range := by rw [runXteaDec, if_neg (not_not.mpr hk), if_pos h]

/-- The length error of the unframed commands stands between the two range errors (43_xtea.md R240, R242). -/
theorem runXteaEcb_eq_range (f : List Word → List Byte → List Byte) (hk : (s.slot slot).kind = .xtea)
    (h : ¬ s.latch.source.valid s.params ∨
      s.latch.srcLen.toNat % 8 = 0 ∧ ¬ (s.latch.dest s.latch.srcLen.toNat).valid s.params) :
    runXteaEcb f slot s = .error .range := by
  rw [runXteaEcb, if_neg (not_not.mpr hk)]
  rcases h with hsrc | ⟨hlen, hdst⟩
  · rw [if_pos hsrc]
  · rw [if_neg (not_not.mpr hlen), if_pos hdst, ite_self]

end

/-! ### Host accesses to the data RAM -/

/-- The number of bytes of an access, as the statements spell it (20_memory.md R88). -/
theorem Width.bytes_eq {width : Width} {n : Nat}
    (h : width = .byte ∧ n = 1 ∨ width = .half ∧ n = 2 ∨ width = .word ∧ n = 4) : width.bytes = n := by
  rcases h with ⟨rfl, rfl⟩ | ⟨rfl, rfl⟩ | ⟨rfl, rfl⟩ <;> rfl

theorem Width.eq_word_iff (width : Width) : width = .word ↔ width.bytes = 4 := by cases width <;> decide

/-- What the window map leaves is a bus error (20_memory.md R84, R85, R86). -/
theorem windowTarget_busError (p : Params) (off : Nat) (width : Width) (hoff : off < 0x200000)
    (hreg : ¬ (off < 0x1000 ∧ width.bytes = 4 ∧ off % 4 = 0))
    (hram : ¬ (0x100000 ≤ off ∧ off < 0x100000 + p.bufBytes ∧ off % width.bytes = 0)) :
    windowTarget p off width = .busError := by
  simp only [windowTarget, registerBytes, ramOffset]
  split_ifs with hlow hword hin
  · obtain ⟨hw, h4⟩ := hword
    exact absurd ⟨hlow, width.eq_word_iff.mp hw, h4⟩ hreg
  · rfl
  · obtain ⟨hup, hbuf, halign⟩ := hin
    have hbelow : off < 0x100000 + p.bufBytes := by omega
    exact absurd ⟨hup, hbelow, halign⟩ hram
  · rfl

theorem State.not_readHazard_of_idle {s : State} (h : s.status.busy = false) (a n : Nat) : ¬ s.readHazard a n :=
  fun hz => Bool.eq_false_iff.mp h hz.1

theorem State.not_writeHazard_of_idle {s : State} (h : s.status.busy = false) (a n : Nat) : ¬ s.writeHazard a n :=
  fun hz => Bool.eq_false_iff.mp h hz.1

/-- A host read of bytes that stand for `v` answers `v`, cut to the bytes read (20_memory.md R80). -/
theorem hostRamRead_of_written {s : State} {a n : Nat} {v : Word} (hz : ¬ s.readHazard a n)
    (h : ∀ k, k < n → s.ram.read (a + k) = some (v.extractLsb' (8 * k) 8)) :
    hostRamRead s a n = .next (s.answer (BitVec.ofNat 32 (v.toNat % 2 ^ (8 * n)))) := by
  have hbytes : s.ram.readBytes a n = some (leBytes n v.toNat) :=
    (s.ram.readBytes_eq_some a n _).mpr
      ⟨leBytes_length n _, fun k hk => (h k hk).trans (leBytes_getElem?_word n v k hk).symm⟩
  refine (hostRamRead_eq_next s _ a n).mpr ⟨hz, _, hbytes, ?_⟩
  rw [leValue_leBytes, pow_mul, show 2 ^ 8 = 256 from rfl]

/-- A host read that meets an unwritten byte (20_memory.md R93). -/
theorem hostRamRead_of_unwritten {s : State} {a n : Nat} (hz : ¬ s.readHazard a n)
    (h : ∃ k, k < n ∧ s.ram.read (a + k) = none) : hostRamRead s a n = .fault .uninitRead := by
  simp only [hostRamRead, if_neg hz, (s.ram.readBytes_eq_none a n).mpr h]

end Sys2Proof.Machine
end

section
/-! The statements of the data RAM: what a command stores, when it stops, `RANGE`, the host's accesses. -/

namespace Sys2Proof.Machine

/-- Settles O24: the only result that is no next state is the read of an unwritten source byte. -/
theorem onlyUnwrittenSourceStopsACommand : Obligations.OnlyUnwrittenSourceStopsACommand := by
  intro s i
  rw [exec_eq_complete]
  cases hr : resultOf i s with
  | ok w n => exact .inl ⟨_, rfl⟩
  | error e => exact .inl ⟨_, rfl⟩
  | uninit => exact .inr ⟨rfl, (s.ram.readBytes_eq_none _ _).mp (resultOf_uninit i s hr)⟩

/-- Settles O27: a command's stores are good writes of `RESULT_LEN` bytes. -/
theorem commandMemoryFrame : Obligations.CommandMemoryFrame := by
  intro i s t hp h
  obtain ⟨w, hw, hram⟩ := exec_stores i s t hp h
  rw [hram]
  exact ⟨hw.read_outside, hw.read_inside, hw.bounds⟩

/-- Settles O49: the window map answers a bus error, and so do the read and the write. -/
theorem busErrorsOfTheWindow : Obligations.BusErrorsOfTheWindow := by
  intro s off n width v hoff hn hreg hram
  obtain rfl := Width.bytes_eq hn
  have htarget : hostTarget s.params (s.params.windowBase + off) width = .busError :=
    (hostTarget_window s.params off width hoff).trans (windowTarget_busError s.params off width hoff hreg hram)
  simp only [hostAccess, htarget, and_self]

/-- Settles O50: no access to an idle block is a hazard, and the bytes written are the bytes read. -/
theorem ramAccessIsLittleEndian : Obligations.RamAccessIsLittleEndian := by
  intro s a n width hp hidle hn ha halign
  obtain rfl := Width.bytes_eq hn
  have hread := hostAccess_readRam s a width hp ha halign
  have hz := State.not_readHazard_of_idle hidle a width.bytes
  refine ⟨fun v => ⟨s.ram.writeBytes a (leBytes width.bytes v.toNat), ?_, s.ram.read_writeLe a width.bytes v, ?_⟩,
    fun v hv hbytes => ?_, fun hnone => hread.trans (hostRamRead_of_unwritten hz hnone)⟩
  · rw [hostAccess_writeRam s a width v hp ha halign]
    exact (hostRamWrite_eq_next s _ a width.bytes v).mpr ⟨State.not_writeHazard_of_idle hidle a width.bytes, rfl⟩
  · refine (hostAccess_readRam { s with ram := s.ram.writeBytes a (leBytes width.bytes v.toNat) } a width hp ha
      halign).trans (hostRamRead_of_written (State.not_readHazard_of_idle hidle a width.bytes) fun k hk => ?_)
    rw [Memory.read_writeLe, if_pos (by omega), Nat.add_sub_cancel_left]
  · rw [hread, hostRamRead_of_written hz hbytes, Nat.mod_eq_of_lt hv, BitVec.ofNat_toNat, BitVec.setWidth_eq]
    rfl

/-- Settles O21: after the key kind, every command with a source looks at its source range first. -/
theorem invalidSourceIsRangeError : Obligations.InvalidSourceIsRangeError := by
  intro s slot kind i hlt h
  have hsrc : ¬ s.latch.source.valid s.params := not_le.mpr hlt
  suffices hr : resultOf i s = .error .range from exec_of_error hr
  rcases h with (rfl | rfl | rfl | rfl) | ⟨rfl, hk⟩ | ⟨rfl | rfl | rfl | rfl, hk⟩
  · exact runDerive_eq_range (.inl hsrc)
  · exact runDeriveKey_eq_range slot kind hsrc
  · exact runLoadKey_eq_range slot kind hsrc
  · exact runTotpGen_eq_range (.inl hsrc)
  · exact runRc4_eq_range hk (.inl hsrc)
  · exact runXteaEnc_eq_range hk (.inl hsrc)
  · exact runXteaDec_eq_range hk hsrc
  · exact runXteaEcb_eq_range ecbEnc hk (.inl hsrc)
  · exact runXteaEcb_eq_range ecbDec hk (.inl hsrc)

/-- Settles O22: an invalid destination, like an early time, is `RANGE` too, so the source range need not be looked at. -/
theorem invalidDestinationIsRangeError : Obligations.InvalidDestinationIsRangeError := by
  intro s slot i _ h
  suffices hr : resultOf i s = .error .range from exec_of_error hr
  rcases h with ⟨rfl, hdst⟩ | ⟨rfl, hk, hdst⟩ | ⟨rfl, hk, hdst⟩ | ⟨rfl | rfl, hk, hlen, hdst⟩ | ⟨rfl, htime⟩
  · exact runDerive_eq_range (.inr (not_le.mpr hdst))
  · exact runRc4_eq_range hk (.inr (not_le.mpr hdst))
  · exact runXteaEnc_eq_range hk (.inr (not_le.mpr hdst))
  · exact runXteaEcb_eq_range ecbEnc hk (.inr ⟨hlen, not_le.mpr hdst⟩)
  · exact runXteaEcb_eq_range ecbDec hk (.inr ⟨hlen, not_le.mpr hdst⟩)
  · exact runTotpGen_eq_range (.inr htime)

end Sys2Proof.Machine
end

section
/-! The command word: packed words and their fields, the decoder's forms, the masks of the match table. -/

namespace Sys2Proof

/-! ### Packed words -/

/-- The bits of a packed word, for fields that fit (30_encoding.md R110). -/
theorem packWord_toNat (op slot kind : Nat) (a : Bool) (ho : op < 256) (hs : slot < 16) (hk : kind < 4) :
    (packWord op slot kind a).toNat = op + 256 * slot + 4096 * kind + 16384 * a.toNat := by
  have ha := a.toNat_le
  rw [packWord, BitVec.toNat_ofNat]
  omega

theorem slotField_val (w : Word) : (slotField w).val = w.toNat / 256 % 16 := rfl

/-- The flag `A` as a number (30_encoding.md R110). -/
theorem allowLastField_toNat (w : Word) : (allowLastField w).toNat = w.toNat / 16384 % 2 := by
  rcases Nat.mod_two_eq_zero_or_one (w.toNat / 16384) with h | h <;> simp [allowLastField, h]

/-- A word is packed from the given fields iff they are its fields and `RSV` is 0 (30_encoding.md R110). -/
theorem packWord_eq_iff (op kind : Nat) (slot : SlotIx) (a : Bool) (w : Word) (ho : op < 256) (hk : kind < 4) :
    packWord op slot.val kind a = w ↔
      rsvField w = 0 ∧ opField w = op ∧ slotField w = slot ∧ kindField w = kind ∧ allowLastField w = a := by
  constructor
  · rintro rfl
    obtain ⟨hop, hslot, hkind, ha, hrsv⟩ := Laws.packWord_fields op slot.val kind a ho slot.isLt hk
    exact ⟨hrsv, hop, Fin.ext hslot, hkind, ha⟩
  · rintro ⟨hrsv, rfl, rfl, rfl, rfl⟩
    exact Laws.packWord_of_fields w hrsv

theorem KeyKind.field_lt (kind : KeyKind) : kind.field < 4 := by cases kind <;> decide

/-- `KIND` stands for a key kind iff it is that kind's value (30_encoding.md R110). -/
theorem kindOfField_eq_some_iff (k : Nat) (kind : KeyKind) : kindOfField k = some kind ↔ k = kind.field := by
  constructor
  · intro h
    unfold kindOfField at h
    split at h <;> cases h <;> rfl
  · rintro rfl
    cases kind <;> rfl

/-! ### The forms of the decoder (30_encoding.md R115) -/

section
variable {numSlots op : Nat} {w : Word} {i : Instr} (ho : op < 256) (hrsv : rsvField w = 0) (hop : opField w = op)
include ho hrsv hop

/-- A word with the right `OP` and `RSV` is the packed one iff the other fields are right. -/
theorem packWord_eq_iff_of_op (kind : Nat) (slot : SlotIx) (a : Bool) (hk : kind < 4) :
    packWord op slot.val kind a = w ↔ slotField w = slot ∧ kindField w = kind ∧ allowLastField w = a := by
  simp only [packWord_eq_iff op kind slot a w ho hk, hrsv, hop, true_and]

/-- The arm of the operations without a field. -/
theorem decodeBare_eq_ok_iff (j : Instr) : decodeBare w j = .ok i ↔ i = j ∧ packWord op 0 0 false = w := by
  have hw := packWord_eq_iff_of_op ho hrsv hop 0 0 false (by decide)
  simp only [Fin.val_zero, ← Fin.val_eq_val] at hw
  rw [decodeBare, hw]
  split_ifs with hused
  · exact iff_of_false nofun fun ⟨_, hslot, hkind, ha⟩ => by simp [hslot, hkind, ha] at hused
  · simp only [not_or, not_not, Bool.not_eq_true] at hused
    simp only [hused, Except.ok.injEq, and_self, and_true, eq_comm]

/-- The arm of `TOTP_VALIDATE`. -/
theorem decodeFlag_eq_ok_iff (mk : Bool → Instr) :
    decodeFlag w mk = .ok i ↔ ∃ a, i = mk a ∧ packWord op 0 0 a = w := by
  have hw := fun a => packWord_eq_iff_of_op ho hrsv hop 0 0 a (by decide)
  simp only [Fin.val_zero, ← Fin.val_eq_val] at hw
  simp only [decodeFlag, hw]
  split_ifs with hused
  · exact iff_of_false nofun fun ⟨_, _, hslot, hkind, _⟩ => by simp [hslot, hkind] at hused
  · simp only [not_or, not_not] at hused
    simp only [hused, Except.ok.injEq, true_and, exists_eq_right', @eq_comm _ i]

/-- The arm of the operations that name a slot. -/
theorem decodeSlot_eq_ok_iff (mk : SlotIx → Instr) :
    decodeSlot numSlots w mk = .ok i ↔
      ∃ slot : SlotIx, slot.val < numSlots ∧ i = mk slot ∧ packWord op slot.val 0 false = w := by
  simp only [decodeSlot, packWord_eq_iff_of_op ho hrsv hop 0 _ false (by decide)]
  split_ifs with hused hslot
  · exact iff_of_false nofun fun ⟨_, _, _, _, hkind, ha⟩ => by simp [hkind, ha] at hused
  · simp only [not_or, not_not, Bool.not_eq_true] at hused
    constructor
    · intro h
      exact ⟨slotField w, hslot, (Except.ok.inj h).symm, rfl, hused.2, hused.1⟩
    · rintro ⟨_, _, rfl, rfl, _⟩
      rfl
  · refine iff_of_false nofun ?_
    rintro ⟨_, hlt, _, rfl, _⟩
    exact hslot hlt

/-- The arm of the key-constructing operations. -/
theorem decodeKeyed_eq_ok_iff (mk : SlotIx → KeyKind → Instr) :
    decodeKeyed numSlots w mk = .ok i ↔ ∃ (slot : SlotIx) (kind : KeyKind),
      slot.val < numSlots ∧ i = mk slot kind ∧ packWord op slot.val kind.field false = w := by
  simp only [decodeKeyed, packWord_eq_iff_of_op ho hrsv hop _ _ false (KeyKind.field_lt _),
    ← kindOfField_eq_some_iff]
  cases hkind : kindOfField (kindField w) with
  | none =>
    refine iff_of_false (fun h => ?_) fun ⟨_, _, _, _, _, hsome, _⟩ => nomatch hsome
    split_ifs at h
  | some kind =>
    simp only
    split_ifs with ha hslot
    · exact iff_of_false nofun fun ⟨_, _, _, _, _, _, ha'⟩ => by simp [ha'] at ha
    · constructor
      · intro h
        exact ⟨slotField w, kind, hslot, (Except.ok.inj h).symm, rfl, rfl, Bool.eq_false_iff.mpr ha⟩
      · rintro ⟨_, _, _, rfl, rfl, hsome, _⟩
        rw [Option.some.inj hsome]
    · refine iff_of_false nofun ?_
      rintro ⟨_, _, hlt, _, rfl, _⟩
      exact hslot hlt

end

/-! ### Decoding and encoding -/

/-- The operation code of a command (30_encoding.md R113). -/
def Instr.op : Instr → Nat
  | .nop => 0x00
  | .derive => 0x01
  | .deriveKey _ _ => 0x02
  | .loadKey _ _ => 0x03
  | .clearKey _ => 0x04
  | .rc4 _ => 0x10
  | .xteaEnc _ => 0x20
  | .xteaDec _ => 0x21
  | .xteaEcbEnc _ => 0x22
  | .xteaEcbDec _ => 0x23
  | .totpGen => 0x30
  | .totpValidate _ => 0x31

theorem Instr.op_lt (i : Instr) : i.op < 256 := by cases i <;> simp only [op] <;> decide

/-- The word of a command is packed with its operation code (30_encoding.md R113). -/
theorem encode_eq_packWord (i : Instr) :
    ∃ (slot : SlotIx) (kind : Nat) (a : Bool), kind < 4 ∧ encode i = packWord i.op slot.val kind a := by
  cases i with
  | nop | derive | totpGen => exact ⟨0, 0, false, by decide, rfl⟩
  | deriveKey slot kind | loadKey slot kind => exact ⟨slot, kind.field, false, kind.field_lt, rfl⟩
  | clearKey slot | rc4 slot | xteaEnc slot | xteaDec slot | xteaEcbEnc slot | xteaEcbDec slot =>
    exact ⟨slot, 0, false, by decide, rfl⟩
  | totpValidate a => exact ⟨0, 0, a, by decide, rfl⟩

theorem encode_rsv_op (i : Instr) : rsvField (encode i) = 0 ∧ opField (encode i) = i.op := by
  obtain ⟨slot, kind, a, hk, h⟩ := encode_eq_packWord i
  obtain ⟨hop, -, -, -, hrsv⟩ := Laws.packWord_fields i.op slot.val kind a i.op_lt slot.isLt hk
  rw [h]
  exact ⟨hrsv, hop⟩

/-- Every command that the block has is what its word decodes to (30_encoding.md R115). -/
theorem decode_encode (numSlots : Nat) (i : Instr) (hwf : i.wf numSlots = true) : decode numSlots (encode i) = .ok i := by
  obtain ⟨hrsv, hop⟩ := encode_rsv_op i
  have ho := i.op_lt
  rw [decode, if_neg (not_not.mpr hrsv), hop]
  cases i with
  | nop | derive | totpGen => exact (decodeBare_eq_ok_iff ho hrsv hop _).mpr ⟨rfl, rfl⟩
  | deriveKey slot kind | loadKey slot kind =>
    exact (decodeKeyed_eq_ok_iff ho hrsv hop _).mpr ⟨slot, kind, of_decide_eq_true hwf, rfl, rfl⟩
  | clearKey slot | rc4 slot | xteaEnc slot | xteaDec slot | xteaEcbEnc slot | xteaEcbDec slot =>
    exact (decodeSlot_eq_ok_iff ho hrsv hop _).mpr ⟨slot, of_decide_eq_true hwf, rfl, rfl⟩
  | totpValidate a => exact (decodeFlag_eq_ok_iff ho hrsv hop _).mpr ⟨a, rfl, rfl⟩

/-- A word that decodes to a command is the command's word, and the block has the command (30_encoding.md R115, R116). -/
theorem encode_of_decode {numSlots : Nat} {w : Word} {i : Instr} (h : decode numSlots w = .ok i) :
    encode i = w ∧ i.wf numSlots = true := by
  rw [decode] at h
  split_ifs at h with hused
  have hrsv : rsvField w = 0 := not_not.mp hused
  split at h
  case h_1 hop | h_2 hop | h_11 hop =>
    obtain ⟨rfl, hw⟩ := (decodeBare_eq_ok_iff (by decide) hrsv hop _).mp h
    exact ⟨hw, rfl⟩
  case h_3 hop | h_4 hop =>
    obtain ⟨slot, kind, hlt, rfl, hw⟩ := (decodeKeyed_eq_ok_iff (by decide) hrsv hop _).mp h
    exact ⟨hw, decide_eq_true hlt⟩
  case h_5 hop | h_6 hop | h_7 hop | h_8 hop | h_9 hop | h_10 hop =>
    obtain ⟨slot, hlt, rfl, hw⟩ := (decodeSlot_eq_ok_iff (by decide) hrsv hop _).mp h
    exact ⟨hw, decide_eq_true hlt⟩
  case h_12 hop =>
    obtain ⟨a, rfl, hw⟩ := (decodeFlag_eq_ok_iff (by decide) hrsv hop _).mp h
    exact ⟨hw, rfl⟩
  case h_13 => cases h

end Sys2Proof
end

section
/-! The match-and-mask table (30_encoding.md R114): what a word is under each mask, and which words a row has. -/

namespace Sys2Proof

/-! ### The masks -/

/-- A mask of ones with a hole from bit `lo` to bit `hi` keeps what is above and below the hole. -/
theorem land_hole (n lo hi top : Nat) (hlo : lo ≤ hi) (hn : n < 2 ^ (hi + top)) :
    n &&& (2 ^ hi * (2 ^ top - 1) + (2 ^ lo - 1)) = 2 ^ hi * (n / 2 ^ hi) + n % 2 ^ lo := by
  have hones : 2 ^ lo - 1 < 2 ^ hi := by
    have := Nat.pow_le_pow_right (n := 2) (by decide) hlo
    have := Nat.two_pow_pos lo
    omega
  have hlow : n % 2 ^ lo < 2 ^ hi := by
    have := Nat.mod_lt n (Nat.two_pow_pos lo)
    omega
  refine Nat.eq_of_testBit_eq fun k => ?_
  rw [Nat.testBit_and, Nat.testBit_two_pow_mul_add _ hones, Nat.testBit_two_pow_mul_add _ hlow,
    Nat.testBit_two_pow_sub_one, Nat.testBit_two_pow_sub_one, Nat.testBit_mod_two_pow, Nat.testBit_div_two_pow]
  by_cases hk : k < hi
  · simp only [if_pos hk, Bool.and_comm]
  · simp only [if_neg hk, Nat.sub_add_cancel (not_lt.mp hk), Bool.and_eq_left_iff_imp, decide_eq_true_eq]
    intro hb
    have hlt := (Nat.pow_lt_pow_iff_right (by decide)).mp ((Nat.ge_two_pow_of_testBit hb).trans_lt hn)
    omega

/-- A word under a mask with a hole from bit `lo` to bit `hi`. -/
theorem toNat_and_hole (w mask : Word) (lo hi : Nat) (hlo : lo ≤ hi) (hhi : hi ≤ 32)
    (hmask : mask.toNat = 2 ^ hi * (2 ^ (32 - hi) - 1) + (2 ^ lo - 1)) :
    (w &&& mask).toNat = 2 ^ hi * (w.toNat / 2 ^ hi) + w.toNat % 2 ^ lo := by
  have hw : w.toNat < 2 ^ (hi + (32 - hi)) := by
    rw [Nat.add_sub_cancel' hhi]
    exact w.isLt
  rw [BitVec.toNat_and, hmask, land_hole _ _ _ _ hlo hw]

theorem and_bareMask_eq_iff (op : Nat) (w : Word) : w &&& 0xFFFFFFFF = BitVec.ofNat 32 op ↔ packWord op 0 0 false = w := by
  have hmask : w &&& 0xFFFFFFFF = w := BitVec.and_allOnes
  rw [hmask, eq_comm]
  rfl

section
variable (op : Nat) (w : Word) (ho : op < 256)
include ho

theorem and_slotMask_eq_iff :
    w &&& 0xFFFFF0FF = BitVec.ofNat 32 op ↔ packWord op (slotField w).val 0 false = w := by
  have hmask := toNat_and_hole w 0xFFFFF0FF 8 12 (by decide) (by decide) (by decide)
  have hpack := packWord_toNat op (slotField w).val 0 false ho (slotField w).isLt (by decide)
  rw [← BitVec.toNat_inj, ← BitVec.toNat_inj, hmask, hpack, BitVec.toNat_ofNat, slotField_val, Bool.toNat_false]
  omega

theorem and_keyedMask_eq_iff :
    w &&& 0xFFFFC0FF = BitVec.ofNat 32 op ↔ packWord op (slotField w).val (kindField w) false = w := by
  have hmask := toNat_and_hole w 0xFFFFC0FF 8 14 (by decide) (by decide) (by decide)
  have hpack := packWord_toNat op (slotField w).val (kindField w) false ho (slotField w).isLt
    (Nat.mod_lt _ (by decide))
  rw [← BitVec.toNat_inj, ← BitVec.toNat_inj, hmask, hpack, BitVec.toNat_ofNat, slotField_val, kindField,
    Bool.toNat_false]
  omega

theorem and_flagMask_eq_iff :
    w &&& 0xFFFFBFFF = BitVec.ofNat 32 op ↔ packWord op 0 0 (allowLastField w) = w := by
  have hmask := toNat_and_hole w 0xFFFFBFFF 14 15 (by decide) (by decide) (by decide)
  have hpack := packWord_toNat op 0 0 (allowLastField w) ho (by decide) (by decide)
  rw [← BitVec.toNat_inj, ← BitVec.toNat_inj, hmask, hpack, BitVec.toNat_ofNat, allowLastField_toNat]
  omega

end

/-! ### The rows -/

theorem bareRow_holds_iff (numSlots op : Nat) (w : Word) (mnemonic : String) :
    (MatchRow.mk mnemonic (BitVec.ofNat 32 op) 0xFFFFFFFF false false).holds numSlots w = true ↔
      packWord op 0 0 false = w := by
  simp only [MatchRow.holds, Bool.and_eq_true, beq_iff_eq, Bool.not_false, Bool.true_or, and_true, and_bareMask_eq_iff]

section
variable {numSlots op : Nat} {w : Word} {mnemonic : String} (ho : op < 256)
include ho

theorem flagRow_holds_iff :
    (MatchRow.mk mnemonic (BitVec.ofNat 32 op) 0xFFFFBFFF false false).holds numSlots w = true ↔
      ∃ a, packWord op 0 0 a = w := by
  simp only [MatchRow.holds, Bool.and_eq_true, beq_iff_eq, Bool.not_false, Bool.true_or, and_true,
    and_flagMask_eq_iff op w ho]
  refine ⟨fun h => ⟨_, h⟩, ?_⟩
  rintro ⟨a, hw⟩
  obtain ⟨-, -, -, -, ha⟩ := (packWord_eq_iff op 0 0 a w ho (by decide)).mp hw
  rwa [ha]

theorem slotRow_holds_iff :
    (MatchRow.mk mnemonic (BitVec.ofNat 32 op) 0xFFFFF0FF false true).holds numSlots w = true ↔
      ∃ slot : SlotIx, slot.val < numSlots ∧ packWord op slot.val 0 false = w := by
  simp only [MatchRow.holds, Bool.and_eq_true, beq_iff_eq, Bool.not_false, Bool.true_or, and_true, Bool.not_true,
    Bool.false_or, decide_eq_true_eq, and_slotMask_eq_iff op w ho]
  constructor
  · rintro ⟨hw, hlt⟩
    exact ⟨_, hlt, hw⟩
  · rintro ⟨slot, hlt, hw⟩
    obtain ⟨-, -, rfl, -, -⟩ := (packWord_eq_iff op 0 slot false w ho (by decide)).mp hw
    exact ⟨hw, hlt⟩

theorem keyedRow_holds_iff :
    (MatchRow.mk mnemonic (BitVec.ofNat 32 op) 0xFFFFC0FF true true).holds numSlots w = true ↔
      ∃ (slot : SlotIx) (kind : KeyKind), slot.val < numSlots ∧ packWord op slot.val kind.field false = w := by
  simp only [MatchRow.holds, Bool.and_eq_true, beq_iff_eq, Bool.not_true, Bool.false_or, decide_eq_true_eq,
    and_keyedMask_eq_iff op w ho, Option.isSome_iff_exists, kindOfField_eq_some_iff]
  constructor
  · rintro ⟨⟨hw, kind, hkind⟩, hlt⟩
    exact ⟨_, kind, hlt, hkind ▸ hw⟩
  · rintro ⟨slot, kind, hlt, hw⟩
    obtain ⟨-, -, rfl, hkind, -⟩ := (packWord_eq_iff op _ slot false w ho kind.field_lt).mp hw
    exact ⟨⟨hkind.symm ▸ hw, kind, hkind⟩, hlt⟩

end

/-- A word that a row has is the word of a command of the row's mnemonic, and the block has the command. -/
theorem command_of_row {numSlots : Nat} {w : Word} {r : MatchRow} (hr : r ∈ matchTable) (h : r.holds numSlots w = true) :
    ∃ i : Instr, i.wf numSlots = true ∧ encode i = w ∧ i.mnemonic = r.mnemonic := by
  simp only [matchTable, List.mem_cons, List.not_mem_nil, or_false] at hr
  rcases hr with rfl | rfl | rfl | rfl | rfl | rfl | rfl | rfl | rfl | rfl | rfl | rfl
  · exact ⟨.nop, rfl, (bareRow_holds_iff _ 0x00 w _).mp h, rfl⟩
  · exact ⟨.derive, rfl, (bareRow_holds_iff _ 0x01 w _).mp h, rfl⟩
  · obtain ⟨slot, kind, hlt, hw⟩ := (keyedRow_holds_iff (op := 0x02) (by decide)).mp h
    exact ⟨.deriveKey slot kind, decide_eq_true hlt, hw, rfl⟩
  · obtain ⟨slot, kind, hlt, hw⟩ := (keyedRow_holds_iff (op := 0x03) (by decide)).mp h
    exact ⟨.loadKey slot kind, decide_eq_true hlt, hw, rfl⟩
  · obtain ⟨slot, hlt, hw⟩ := (slotRow_holds_iff (op := 0x04) (by decide)).mp h
    exact ⟨.clearKey slot, decide_eq_true hlt, hw, rfl⟩
  · obtain ⟨slot, hlt, hw⟩ := (slotRow_holds_iff (op := 0x10) (by decide)).mp h
    exact ⟨.rc4 slot, decide_eq_true hlt, hw, rfl⟩
  · obtain ⟨slot, hlt, hw⟩ := (slotRow_holds_iff (op := 0x20) (by decide)).mp h
    exact ⟨.xteaEnc slot, decide_eq_true hlt, hw, rfl⟩
  · obtain ⟨slot, hlt, hw⟩ := (slotRow_holds_iff (op := 0x21) (by decide)).mp h
    exact ⟨.xteaDec slot, decide_eq_true hlt, hw, rfl⟩
  · obtain ⟨slot, hlt, hw⟩ := (slotRow_holds_iff (op := 0x22) (by decide)).mp h
    exact ⟨.xteaEcbEnc slot, decide_eq_true hlt, hw, rfl⟩
  · obtain ⟨slot, hlt, hw⟩ := (slotRow_holds_iff (op := 0x23) (by decide)).mp h
    exact ⟨.xteaEcbDec slot, decide_eq_true hlt, hw, rfl⟩
  · exact ⟨.totpGen, rfl, (bareRow_holds_iff _ 0x30 w _).mp h, rfl⟩
  · obtain ⟨a, hw⟩ := (flagRow_holds_iff (op := 0x31) (by decide)).mp h
    exact ⟨.totpValidate a, rfl, hw, rfl⟩

/-- The row of a command (30_encoding.md R114). -/
def Instr.row (i : Instr) : MatchRow :=
  match i with
  | .nop | .derive | .totpGen => ⟨i.mnemonic, BitVec.ofNat 32 i.op, 0xFFFFFFFF, false, false⟩
  | .deriveKey _ _ | .loadKey _ _ => ⟨i.mnemonic, BitVec.ofNat 32 i.op, 0xFFFFC0FF, true, true⟩
  | .clearKey _ | .rc4 _ | .xteaEnc _ | .xteaDec _ | .xteaEcbEnc _ | .xteaEcbDec _ =>
    ⟨i.mnemonic, BitVec.ofNat 32 i.op, 0xFFFFF0FF, false, true⟩
  | .totpValidate _ => ⟨i.mnemonic, BitVec.ofNat 32 i.op, 0xFFFFBFFF, false, false⟩

theorem Instr.row_mem (i : Instr) : i.row ∈ matchTable := by
  cases i <;> simp [row, op, mnemonic, matchTable]

theorem Instr.row_mnemonic (i : Instr) : i.row.mnemonic = i.mnemonic := by cases i <;> rfl

/-- The row of a command has the command's word, if the block has the command. -/
theorem Instr.row_holds (numSlots : Nat) (i : Instr) (hwf : i.wf numSlots = true) :
    i.row.holds numSlots (encode i) = true := by
  cases i with
  | nop | derive | totpGen => exact (bareRow_holds_iff _ _ _ _).mpr rfl
  | deriveKey slot kind | loadKey slot kind =>
    exact (keyedRow_holds_iff (Instr.op_lt _)).mpr ⟨slot, kind, of_decide_eq_true hwf, rfl⟩
  | clearKey slot | rc4 slot | xteaEnc slot | xteaDec slot | xteaEcbEnc slot | xteaEcbDec slot =>
    exact (slotRow_holds_iff (Instr.op_lt _)).mpr ⟨slot, of_decide_eq_true hwf, rfl⟩
  | totpValidate a => exact (flagRow_holds_iff (Instr.op_lt _)).mpr ⟨a, rfl⟩

/-- The mnemonics of the table are distinct. -/
theorem matchTable_mnemonic_inj : ∀ r ∈ matchTable, ∀ r' ∈ matchTable, r.mnemonic = r'.mnemonic → r = r' := by decide

/-- A word is the command of a row iff it decodes to a command of the row's mnemonic (30_encoding.md R114). -/
theorem row_holds_iff_decode (numSlots : Nat) (w : Word) {r : MatchRow} (hr : r ∈ matchTable) :
    r.holds numSlots w = true ↔ ∃ i, decode numSlots w = .ok i ∧ i.mnemonic = r.mnemonic := by
  constructor
  · intro h
    obtain ⟨i, hwf, rfl, hname⟩ := command_of_row hr h
    exact ⟨i, decode_encode numSlots i hwf, hname⟩
  · rintro ⟨i, hdec, hname⟩
    obtain ⟨rfl, hwf⟩ := encode_of_decode hdec
    obtain rfl := matchTable_mnemonic_inj _ i.row_mem r hr (i.row_mnemonic.trans hname)
    exact i.row_holds numSlots hwf

/-! ### The statements of the encoding -/

/-- Settles O1, by the form of each command's word. -/
theorem decodeOfEncode : Obligations.DecodeOfEncode := decode_encode

/-- Settles O2, by the decoder's arm for each operation code. -/
theorem encodeOfDecode : Obligations.EncodeOfDecode := fun _ _ _ => encode_of_decode

/-- Settles O3: two rows that a word matches have the mnemonic of the one command it decodes to. -/
theorem decodeAgreesWithMatchTable : Obligations.DecodeAgreesWithMatchTable := by
  intro numSlots w
  refine ⟨fun r hr => row_holds_iff_decode numSlots w hr, fun r hr r' hr' h h' => ?_⟩
  obtain ⟨i, hi, hname⟩ := (row_holds_iff_decode numSlots w hr).mp h
  obtain ⟨i', hi', hname'⟩ := (row_holds_iff_decode numSlots w hr').mp h'
  have hsame : i = i' := Except.ok.inj (hi.symm.trans hi')
  exact matchTable_mnemonic_inj r hr r' hr' (hname.symm.trans (hsame ▸ hname'))

/-- Settles O4, by evaluating the decoder on each written-out word. -/
theorem sampleWordsDecode : Obligations.SampleWordsDecode := by
  unfold Obligations.SampleWordsDecode
  decide

end Sys2Proof
end

section
/-! The steps of a host program: the engine's turn on the pending command, the issue of a command, polls of `STATUS`. -/

namespace Sys2Proof.Machine

/-! ### The engine's turn -/

theorem engineTurn_idle {s : State} (h : s.status.busy = false) : engineTurn s = .next s := by
  rw [engineTurn, if_neg (Bool.eq_false_iff.mp h)]

/-- The engine's turn performs a pending command that decodes (30_encoding.md R121). -/
theorem engineTurn_exec {s : State} {i : Instr} (hb : s.status.busy = true)
    (hi : decode s.params.numSlots s.latch.cmd = .ok i) : engineTurn s = exec i s := by
  simp only [engineTurn, if_pos hb, perform, hi]

theorem step_of_no_inputs {s : State} (h : s.inputs = []) : step s = engineTurn s := by simp only [step, nextEvent, h]

theorem step_engine {s : State} {rest : List Event} (h : s.inputs = .engine :: rest) :
    step s = engineTurn { s with inputs := rest } := by simp only [step, nextEvent, h, happen]

/-- A meaning neither reads nor writes what is still to happen and what the block returned to the host (logs 1 and 6). -/
theorem exec_inputs_reply {i : Instr} {s t : State} (h : exec i s = .next t) (inputs : List Event) (reply : Option Word) :
    exec i { s with inputs := inputs, reply := reply } = .next { t with inputs := inputs, reply := reply } := by
  have hres : resultOf i { s with inputs := inputs, reply := reply } = resultOf i s :=
    resultOf_congr i s _ rfl rfl rfl (fun _ _ => rfl) fun _ => rfl
  rw [exec_eq_complete, hres]
  rcases exec_next i s t h with ⟨w, n, hr, rfl⟩ | ⟨e, hr, rfl⟩
  · rw [hr]
    rfl
  · rw [hr]
    rfl

/-! ### Forms of the host (30_encoding.md R118) -/

/-- Every register stands at an aligned offset of the register window (10_state.md R35). -/
theorem Register.offset_aligned (r : Register) : r.offset < 0x1000 ∧ r.offset % 4 = 0 := by cases r <;> decide

theorem Register.at?_offset (r : Register) : Register.at? r.offset = some r := by cases r <;> rfl

/-- `RD` of a register answers what stands there. -/
theorem step_rd {s : State} {r : Register} {rest : List Event}
    (h : s.inputs = (HostOp.rd r).events s.params ++ rest) :
    step s = .next { s with inputs := rest, reply := some (s.readRegister r) } := by
  obtain ⟨hlt, h4⟩ := r.offset_aligned
  have hread := hostAccess_readOffset { s with inputs := rest } r.offset hlt h4
  simp only [State.readOffset, r.at?_offset] at hread
  exact (step_host s _ rest h).trans hread

/-- The issue of a command to an idle block is accepted (10_state.md R44). -/
theorem step_issue {s : State} {i : Instr} {rest : List Event} (hidle : s.status.busy = false)
    (h : s.inputs = (HostOp.issue i).events s.params ++ rest) :
    step s = .next (State.accept { s with inputs := rest } (encode i)) := by
  obtain ⟨hlt, h4⟩ := Register.cmd.offset_aligned
  have hwrite := hostAccess_writeOffset { s with inputs := rest } Register.cmd.offset (encode i) hlt h4
  simp only [State.writeOffset, Register.at?_offset, State.writeRegister, State.writeCmd, hidle] at hwrite
  exact (step_host s _ rest h).trans hwrite

/-- Polls of `STATUS` change nothing but the last answer (30_encoding.md R119). -/
theorem run_polls (k : Nat) (rest : List Event) (polls : Nat) (s : State)
    (h : s.inputs = (List.replicate polls (HostOp.rd .status)).flatMap (HostOp.events s.params) ++ rest) :
    ∃ reply, Sys2Proof.core.run (polls + k) s = Sys2Proof.core.run k { s with inputs := rest, reply := reply } := by
  induction polls generalizing s with
  | zero =>
    obtain rfl : s.inputs = rest := h
    exact ⟨s.reply, by rw [Nat.zero_add]⟩
  | succ polls ih =>
    rw [List.replicate_succ, List.flatMap_cons, List.append_assoc] at h
    rw [Nat.succ_add, run_succ_of_step _ (step_rd h)]
    exact ih _ rfl

/-- `WAIT` on a pending command that completes ends with the command performed and `STATUS` read, whatever the number of
polls (30_encoding.md R119). -/
theorem run_wait {s t : State} {i : Instr} {polls : Nat} (hb : s.status.busy = true)
    (hi : decode s.params.numSlots s.latch.cmd = .ok i) (hinputs : s.inputs = waitEvents s.params polls)
    (hexec : exec i { s with inputs := [] } = .next t) :
    Sys2Proof.core.run (polls + 2) s = .next { t with reply := some t.status.word } := by
  rw [waitEvents, List.append_assoc] at hinputs
  obtain ⟨reply, hpolls⟩ := run_polls 2 _ polls s hinputs
  obtain ⟨hparams, -, -, -, -, hempty, -⟩ := exec_keeps hexec
  have hread : (HostOp.rd .status).events s.params = (HostOp.rd .status).events t.params ++ [] := by
    rw [hparams, List.append_nil]
  have hturn : engineTurn { s with inputs := (HostOp.rd .status).events s.params, reply := reply } =
      .next { t with inputs := (HostOp.rd .status).events s.params, reply := reply } := by
    refine (engineTurn_exec ?_ ?_).trans (exec_inputs_reply hexec _ reply)
    · exact hb
    · exact hi
  calc Sys2Proof.core.run (polls + 2) s
    _ = Sys2Proof.core.run 2 _ := hpolls
    _ = Sys2Proof.core.run 1 _ := run_succ_of_step 1 ((step_engine rfl).trans hturn)
    _ = Sys2Proof.core.run 0 _ := run_succ_of_step 0 (step_rd hread)
    _ = .next { t with reply := some t.status.word } := by
      rw [show t.inputs = [] from hempty]
      rfl

/-! ### The statements of the steps -/

/-- Settles O60: the issue is accepted, and the word that `WAIT` finds pending decodes to the command. -/
theorem runPseudoInstruction : Obligations.RunPseudoInstruction := by
  intro s t i polls hwf hidle hinputs hexec
  exact (run_succ_of_step (polls + 2) (step_issue hidle hinputs)).trans
    (run_wait rfl (decode_encode _ i hwf) rfl hexec)

/-- Settles O5: either step is the engine's turn, which performs the command that the latched word decodes to. -/
theorem stepRunsDecodedCommand : Obligations.StepRunsDecodedCommand := by
  intro s i hb hi
  refine ⟨fun hinputs => ?_, fun rest hinputs => ?_⟩
  · exact (step_of_no_inputs hinputs).trans (engineTurn_exec hb hi)
  · exact (step_engine hinputs).trans (engineTurn_exec hb hi)

/-- Settles O6: an illegal word's result is the error `ILLEGAL_COMMAND`. -/
theorem illegalWordCompletesWithError : Obligations.IllegalWordCompletesWithError := by
  intro s e _ he
  have hresult : pendingResult s = .error .illegalCommand := by simp only [pendingResult, he]
  rw [perform_eq_complete, hresult]
  rfl

/-- Settles O7: with no event left the step is the engine's turn, which is not enabled. -/
theorem idleBlockStays : Obligations.IdleBlockStays := fun _ hidle hinputs =>
  (step_of_no_inputs hinputs).trans (engineTurn_idle hidle)

end Sys2Proof.Machine
end

section
/-! PBKDF2 and the stretcher give one stream of bytes, which a request cuts at the length asked for. -/

namespace Sys2Proof

/-- The stream of blocks goes on from where a shorter one ends (40_primitives.md R145). -/
theorem pbkdf2Blocks_add (p salt : List Byte) (c k l i : Nat) :
    pbkdf2Blocks p salt c (k + l) i = pbkdf2Blocks p salt c k i ++ pbkdf2Blocks p salt c l (i + k) := by
  induction k generalizing i with
  | zero => rw [Nat.zero_add, pbkdf2Blocks, List.nil_append, Nat.add_zero]
  | succ k ih =>
    rw [Nat.succ_add, pbkdf2Blocks, ih, pbkdf2Blocks, List.append_assoc, Nat.succ_add_eq_add_succ]

/-- Blocks beyond those that reach `n` bytes do not change the first `n` bytes (40_primitives.md R145). -/
theorem pbkdf2_eq_take_blocks (p salt : List Byte) (c : Nat) {n k : Nat} (h : (n + 19) / 20 ≤ k) :
    pbkdf2 p salt c n = (pbkdf2Blocks p salt c k 1).take n := by
  obtain ⟨l, rfl⟩ := Nat.exists_eq_add_of_le h
  have hreach : n ≤ (pbkdf2Blocks p salt c ((n + 19) / 20) 1).length := by
    rw [pbkdf2Blocks_length]
    omega
  rw [pbkdf2, pbkdf2Blocks_add, List.take_append_of_le_length hreach]

/-- A shorter request gives the first bytes of a longer one (40_primitives.md R147). -/
theorem pbkdf2_eq_take (p salt : List Byte) (c : Nat) {m n : Nat} (h : m ≤ n) :
    pbkdf2 p salt c m = (pbkdf2 p salt c n).take m := by
  have hblocks : (m + 19) / 20 ≤ (n + 19) / 20 := by omega
  rw [pbkdf2_eq_take_blocks p salt c hblocks, pbkdf2, List.take_take, Nat.min_eq_left h]

/-- Settles O32: both lengths cut the same stream of blocks. -/
theorem stretchPrefix : Obligations.StretchPrefix := fun c p _ n h =>
  ⟨pbkdf2_eq_take p p.reverse c h, stretch_length c p n⟩

end Sys2Proof
end

section
/-! Key derivation and the key slots: the writes of a completion without error, one equation per outcome of a command's
result, and the statements they settle. -/

namespace Sys2Proof.Machine

/-! ### Completion without error (30_encoding.md R121) -/

section
variable {i : Instr} {s : State}

/-- A command whose result is ok completes with its writes. -/
theorem exec_of_ok {w : Writes} {n : Nat} (h : resultOf i s = .ok w n) :
    exec i s = .next ((s.applyWrites w).finishOk n) := by rw [exec_eq_complete, h, State.complete]

theorem exec_of_output {bytes : List Byte} {n : Word} (h : resultOf i s = s.latch.output bytes n.toNat) :
    exec i s = .next { s with
      ram := s.ram.writeBytes s.latch.dstAddr.toNat bytes
      resultLen := n
      errcode := 0
      status := s.status.completed } := by
  rw [exec_of_ok h, State.finishOk, BitVec.ofNat_toNat, BitVec.setWidth_eq]
  rfl

theorem exec_of_slotWrite {slot : SlotIx} {contents : KeySlot}
    (h : resultOf i s = .ok { slot := some (slot, contents) } 0) :
    exec i s = .next { s with
      slots := s.slots.set slot.val contents
      resultLen := 0
      errcode := 0
      status := s.status.completed } := exec_of_ok h

end

/-- A command that reads goes on with the bytes that stand in its range (20_memory.md R93). -/
theorem withBytes_of_read {s : State} {r : Range} {bytes : List Byte} (k : List Byte → CmdResult)
    (h : s.ram.readBytes r.addr r.len = some bytes) : s.withBytes r k = k bytes := by
  simp only [State.withBytes, h]

/-! ### The contents of a filled slot (41_key_derivation.md R181, R186, R188) -/

theorem keyLen_ne_zero (kind : KeyKind) : keyLen kind ≠ 0 := by cases kind <;> decide

/-- A key of `KeyLen` bytes is filled with zeros up to the 256 bytes of a slot. -/
theorem keyedSlot_of_length {kind : KeyKind} {key : List Byte} (h : key.length = keyLen kind) :
    keyedSlot kind key = { kind := slotKindOf kind, key := key ++ zeros (256 - keyLen kind) } := by rw [keyedSlot, h]

theorem keyedSlot_rc4 {key : List Byte} (h : key.length = keyLen .rc4) :
    keyedSlot .rc4 key = { kind := .rc4, key := key } :=
  (keyedSlot_of_length h).trans (congrArg (KeySlot.mk .rc4) (List.append_nil key))

theorem keyedSlot_xtea {key : List Byte} (h : key.length = keyLen .xtea) :
    keyedSlot .xtea key = { kind := .xtea, key := key ++ zeros 128 } := keyedSlot_of_length h

/-! ### The results of the commands that derive or load (41_key_derivation.md R184, R186, R188) -/

section
variable {s : State} {bytes : List Byte} (slot : SlotIx)

theorem runDerive_eq_output (hsrc : s.latch.source.valid s.params)
    (hdst : (s.latch.dest s.latch.outLen.toNat).valid s.params)
    (hread : s.ram.readBytes s.latch.source.addr s.latch.source.len = some bytes) :
    runDerive s = s.latch.output (stretch s.params.pbkdfIter bytes s.latch.outLen.toNat) s.latch.outLen.toNat := by
  rw [runDerive, if_neg (not_not.mpr hsrc), if_neg (not_not.mpr hdst), withBytes_of_read _ hread]

theorem runDeriveKey_eq_ok (kind : KeyKind) (hsrc : s.latch.source.valid s.params)
    (hread : s.ram.readBytes s.latch.source.addr s.latch.source.len = some bytes) :
    runDeriveKey slot kind s =
      .ok { slot := some (slot, keyedSlot kind (stretch s.params.pbkdfIter bytes (keyLen kind))) } 0 := by
  rw [runDeriveKey, if_neg (not_not.mpr hsrc), withBytes_of_read _ hread]

theorem runLoadKey_eq_ok {kind : KeyKind} (hsrc : s.latch.source.valid s.params)
    (hlen : s.latch.srcLen.toNat = keyLen kind)
    (hread : s.ram.readBytes s.latch.source.addr s.latch.source.len = some bytes) :
    runLoadKey slot kind s = .ok { slot := some (slot, keyedSlot kind bytes) } 0 := by
  have hnonempty : ¬ (kind = .rc4 ∧ s.latch.srcLen.toNat = 0) := fun ⟨_, hzero⟩ =>
    keyLen_ne_zero kind (hlen.symm.trans hzero)
  rw [runLoadKey, if_neg (not_not.mpr hsrc), if_neg hnonempty, if_neg (not_not.mpr hlen), withBytes_of_read _ hread]

theorem runLoadKey_eq_emptyKey (hsrc : s.latch.source.valid s.params) (hlen : s.latch.srcLen.toNat = 0) :
    runLoadKey slot .rc4 s = .error .emptyKey := by
  rw [runLoadKey, if_neg (not_not.mpr hsrc), if_pos ⟨rfl, hlen⟩]

theorem runLoadKey_eq_invalidKeyMaterial {kind : KeyKind} (hsrc : s.latch.source.valid s.params)
    (hnonempty : ¬ (kind = .rc4 ∧ s.latch.srcLen.toNat = 0)) (hlen : s.latch.srcLen.toNat ≠ keyLen kind) :
    runLoadKey slot kind s = .error .invalidKeyMaterial := by
  rw [runLoadKey, if_neg (not_not.mpr hsrc), if_neg hnonempty, if_pos hlen]

end

/-! ### `KEY_NOT_LOADED` (41_key_derivation.md R192) -/

section
variable {slot : SlotIx} {s : State}

theorem runRc4_eq_keyNotLoaded (h : (s.slot slot).kind ≠ .rc4) : runRc4 slot s = .error .keyNotLoaded := by
  rw [runRc4, if_pos h]

theorem runXteaEnc_eq_keyNotLoaded (h : (s.slot slot).kind ≠ .xtea) : runXteaEnc slot s = .error .keyNotLoaded := by
  rw [runXteaEnc, if_pos h]

theorem runXteaDec_eq_keyNotLoaded (h : (s.slot slot).kind ≠ .xtea) : runXteaDec slot s = .error .keyNotLoaded := by
  rw [runXteaDec, if_pos h]

theorem runXteaEcb_eq_keyNotLoaded (f : List Word → List Byte → List Byte) (h : (s.slot slot).kind ≠ .xtea) :
    runXteaEcb f slot s = .error .keyNotLoaded := by rw [runXteaEcb, if_pos h]

end

/-! ### The statements of key derivation and the key slots -/

/-- Settles O9: on valid ranges the result is an output of `OUT_LEN` bytes. -/
theorem deriveResult : Obligations.DeriveResult := fun _ _ hsrc hdst hread =>
  exec_of_output (runDerive_eq_output hsrc hdst hread)

/-- Settles O10: the stretched bytes have the kind's length, so only an XTEA key is filled with zeros. -/
theorem deriveKeyResult : Obligations.DeriveKeyResult := by
  intro s slot password hsrc hread
  have hrc4 := exec_of_slotWrite (i := .deriveKey slot .rc4) (runDeriveKey_eq_ok slot .rc4 hsrc hread)
  have hxtea := exec_of_slotWrite (i := .deriveKey slot .xtea) (runDeriveKey_eq_ok slot .xtea hsrc hread)
  rw [keyedSlot_rc4 (stretch_length _ _ _)] at hrc4
  rw [keyedSlot_xtea (stretch_length _ _ _)] at hxtea
  exact ⟨hrc4, hxtea⟩

/-- Settles O11: as many bytes are read as the kind needs. -/
theorem loadKeyResult : Obligations.LoadKeyResult := by
  intro s slot key hsrc hread
  have hkey := s.ram.readBytes_length _ _ key hread
  refine ⟨fun hlen => ?_, fun hlen => ?_⟩
  · have h256 : s.latch.srcLen.toNat = keyLen .rc4 := congrArg BitVec.toNat hlen
    have hrc4 := exec_of_slotWrite (i := .loadKey slot .rc4) (runLoadKey_eq_ok slot hsrc h256 hread)
    rwa [keyedSlot_rc4 (hkey.trans h256)] at hrc4
  · have h128 : s.latch.srcLen.toNat = keyLen .xtea := congrArg BitVec.toNat hlen
    have hxtea := exec_of_slotWrite (i := .loadKey slot .xtea) (runLoadKey_eq_ok slot hsrc h128 hread)
    rwa [keyedSlot_xtea (hkey.trans h128)] at hxtea

/-- Settles O12: `EMPTY_KEY` is for RC4 alone, and every other wrong length is `INVALID_KEY_MATERIAL`. -/
theorem loadKeyLengthErrors : Obligations.LoadKeyLengthErrors := by
  intro s slot hsrc
  refine ⟨fun hzero => ?_, fun hzero hlen => ?_, fun hlen => ?_⟩
  · have hnone : s.latch.srcLen.toNat = 0 := congrArg BitVec.toNat hzero
    exact exec_of_error (i := .loadKey slot .rc4) (runLoadKey_eq_emptyKey slot hsrc hnone)
  · have hsome : ¬ (KeyKind.rc4 = .rc4 ∧ s.latch.srcLen.toNat = 0) := fun ⟨_, h⟩ => hzero (BitVec.eq_of_toNat_eq h)
    have hother : s.latch.srcLen.toNat ≠ keyLen .rc4 := fun h => hlen (BitVec.eq_of_toNat_eq h)
    exact exec_of_error (i := .loadKey slot .rc4) (runLoadKey_eq_invalidKeyMaterial slot hsrc hsome hother)
  · have hkind : ¬ (KeyKind.xtea = .rc4 ∧ s.latch.srcLen.toNat = 0) := fun ⟨h, _⟩ => nomatch h
    have hother : s.latch.srcLen.toNat ≠ keyLen .xtea := fun h => hlen (BitVec.eq_of_toNat_eq h)
    exact exec_of_error (i := .loadKey slot .xtea) (runLoadKey_eq_invalidKeyMaterial slot hsrc hkind hother)

/-- Settles O13: the result is the write of an empty slot, in every state. -/
theorem clearKeyResult : Obligations.ClearKeyResult := fun _ slot => exec_of_slotWrite (i := .clearKey slot) rfl

/-- Settles O20: each cipher command looks at the kind of its slot before anything else. -/
theorem cipherNeedsItsKeyKind : Obligations.CipherNeedsItsKeyKind := by
  intro s slot i h
  suffices hr : resultOf i s = .error .keyNotLoaded from exec_of_error hr
  rcases h with ⟨rfl, hk⟩ | ⟨rfl | rfl | rfl | rfl, hk⟩
  · exact runRc4_eq_keyNotLoaded hk
  · exact runXteaEnc_eq_keyNotLoaded hk
  · exact runXteaDec_eq_keyNotLoaded hk
  · exact runXteaEcb_eq_keyNotLoaded ecbEnc hk
  · exact runXteaEcb_eq_keyNotLoaded ecbDec hk

end Sys2Proof.Machine
end

section
/-! RC4: the key schedule permutes the bytes 0 to 255 and reads its key cyclically, a keystream undoes itself, and the
statements of the command. -/

namespace Sys2Proof

/-! ### The key schedule (42_rc4.md R210) -/

theorem swapEntries_perm {table : List Byte} {i j : Nat} (hi : i < table.length) (hj : j < table.length) :
    (swapEntries table i j).Perm table := by
  rw [swapEntries, List.getD_eq_getElem _ _ hi, List.getD_eq_getElem _ _ hj]
  exact List.set_set_perm hi hj

/-- The cursor `j` is a byte, so turns that stay within a table of 256 entries only swap entries. -/
theorem ksaTurns_perm (key : List Byte) (n i : Nat) (j : Byte) (table : List Byte) (hlen : table.length = 256)
    (hturns : i + n ≤ 256) : (ksaTurns key n i j table).Perm table := by
  induction n generalizing i j table with
  | zero => exact .refl table
  | succ n ih =>
    have hi : i < table.length := by omega
    have hj (k : Byte) : k.toNat < table.length := hlen ▸ k.isLt
    exact (ih (i + 1) _ _ ((swapEntries_length _ _ _).trans hlen) (by omega)).trans (swapEntries_perm hi (hj _))

/-- The turns depend on the key only through the byte that each of them reads. -/
theorem ksaTurns_congr {key key' : List Byte} (n i : Nat) (j : Byte) (table : List Byte)
    (h : ∀ k, k < i + n → key'.getD (k % key'.length) 0 = key.getD (k % key.length) 0) :
    ksaTurns key' n i j table = ksaTurns key n i j table := by
  induction n generalizing i j table with
  | zero => rfl
  | succ n ih =>
    rw [ksaTurns, ksaTurns, h i (by omega)]
    exact ih _ _ _ fun k hk => h k (by omega)

/-- Settles O31: every turn swaps two entries, and turn `i` reads byte `i` of the repetition, which is byte `i % len(K)` of the
key. -/
theorem keyScheduleIsPermutation : Obligations.KeyScheduleIsPermutation := by
  refine fun key => ⟨ksaTurns_perm key 256 0 0 identityTable identityTable_length le_rfl, fun _ => ?_⟩
  refine ksaTurns_congr 256 0 0 identityTable fun k hturn => ?_
  have hk : k < 256 := by omega
  rw [List.length_map, List.length_range, Nat.mod_eq_of_lt hk, List.getD_eq_getElem _ _ (by simpa using hk),
    List.getElem_map, List.getElem_range]

/-! ### The keystream (42_rc4.md R211, R216) -/

/-- `xor(xor(X, Z), Z) = X` for a `Z` that is as long as `X` or longer. -/
theorem xorBytes_xorBytes_cancel {x z : List Byte} (h : x.length ≤ z.length) : xorBytes (xorBytes x z) z = x := by
  refine List.ext_getElem (by simp [h]) fun k _ _ => ?_
  simp only [xorBytes, List.getElem_zipWith]
  rw [BitVec.xor_assoc, BitVec.xor_self, BitVec.xor_zero]

end Sys2Proof

namespace Sys2Proof.Machine

/-! ### The command (42_rc4.md R214, R216) -/

section
variable {s : State} {slot : SlotIx} {x : List Byte}

theorem runRc4_eq_output (hk : (s.slot slot).kind = .rc4) (hsrc : s.latch.source.valid s.params)
    (hdst : (s.latch.dest s.latch.srcLen.toNat).valid s.params)
    (hread : s.ram.readBytes s.latch.source.addr s.latch.source.len = some x) :
    runRc4 slot s =
      s.latch.output (xorBytes x (rc4Stream (s.slot slot).key s.latch.srcLen.toNat)) s.latch.srcLen.toNat := by
  rw [runRc4, if_neg (not_not.mpr hk), if_neg (not_not.mpr hsrc), if_neg (not_not.mpr hdst), withBytes_of_read _ hread]

/-- What `RC4` stores stands at its destination, and `RESULT_LEN` counts it (42_rc4.md R214). -/
theorem exec_rc4_stored (hk : (s.slot slot).kind = .rc4)
    (hsrc : s.latch.srcAddr.toNat + s.latch.srcLen.toNat ≤ s.params.bufBytes)
    (hdst : s.latch.dstAddr.toNat + s.latch.srcLen.toNat ≤ s.params.bufBytes)
    (hread : s.ram.readBytes s.latch.srcAddr.toNat s.latch.srcLen.toNat = some x) :
    ∃ t, exec (.rc4 slot) s = .next t ∧ t.resultLen = s.latch.srcLen ∧
      t.ram.readBytes s.latch.dstAddr.toNat s.latch.srcLen.toNat =
        some (xorBytes x (rc4Stream (s.slot slot).key s.latch.srcLen.toNat)) := by
  refine ⟨_, exec_of_output (i := .rc4 slot) (runRc4_eq_output hk hsrc hdst hread), rfl, ?_⟩
  have hstored := s.ram.readBytes_writeBytes s.latch.dstAddr.toNat
    (xorBytes x (rc4Stream (s.slot slot).key s.latch.srcLen.toNat))
  rwa [xorBytes_length, rc4Stream_length, s.ram.readBytes_length _ _ x hread, min_self] at hstored

end

/-! ### The statements of RC4 -/

/-- Settles O14: on valid ranges the result is an output of `SRC_LEN` bytes. -/
theorem rc4Result : Obligations.Rc4Result := fun _ slot _ hk hsrc hdst hread =>
  exec_of_output (i := .rc4 slot) (runRc4_eq_output hk hsrc hdst hread)

/-- Settles O36: both commands use the slot's one keystream of `SRC_LEN` bytes, which cancels. -/
theorem rc4SelfInverse : Obligations.Rc4SelfInverse := by
  intro s slot x hk hsrc hdst hread
  obtain ⟨t, ht, -, hstored⟩ := exec_rc4_stored hk hsrc hdst hread
  refine ⟨t, ht, fun u hparams hslot haddr hlen hdst' hsame => ?_⟩
  have hsrc' : u.latch.srcAddr.toNat + u.latch.srcLen.toNat ≤ u.params.bufBytes := by rwa [hparams, haddr, hlen]
  have hread' : u.ram.readBytes u.latch.srcAddr.toNat u.latch.srcLen.toNat =
      some (xorBytes x (rc4Stream (s.slot slot).key s.latch.srcLen.toNat)) := by rw [haddr, hlen, hsame, hstored]
  obtain ⟨v, hv, hcount, hback⟩ := exec_rc4_stored ((congrArg KeySlot.kind hslot).trans hk) hsrc' hdst' hread'
  refine ⟨v, hv, ?_, hcount.trans hlen⟩
  have hx : x.length ≤ (rc4Stream (s.slot slot).key s.latch.srcLen.toNat).length := by
    rw [rc4Stream_length, s.ram.readBytes_length _ _ x hread]
  rw [hback, hslot, hlen, xorBytes_xorBytes_cancel hx]

end Sys2Proof.Machine
end

section
/-! XTEA: the rounds undo each other, so do the block functions on every block of a sequence, and framing is undone by
unframing. -/

namespace Sys2Proof

/-! ### The rounds and the block functions (43_xtea.md R231, R232) -/

/-- One round of encryption from the sum and the halves: the body of the loop of R231. -/
def xteaEncRound (key : List Word) (sum : Word) (v : Word × Word) : Word × Word := xteaEncRounds key 1 sum v

/-- One round of decryption from the sum and the halves: the body of the loop of R232. -/
def xteaDecRound (key : List Word) (sum : Word) (v : Word × Word) : Word × Word := xteaDecRounds key 1 sum v

theorem xteaEncRounds_succ (key : List Word) (n : Nat) (sum : Word) (v : Word × Word) :
    xteaEncRounds key (n + 1) sum v = xteaEncRounds key n (sum + xteaDelta) (xteaEncRound key sum v) := rfl

theorem xteaDecRounds_succ (key : List Word) (n : Nat) (sum : Word) (v : Word × Word) :
    xteaDecRounds key (n + 1) sum v = xteaDecRounds key n (sum - xteaDelta) (xteaDecRound key sum v) := rfl

/-- Decryption peeled at its last round, which starts from the sum that `n` rounds have left. -/
theorem xteaDecRounds_succ_last (key : List Word) (n : Nat) (sum : Word) (v : Word × Word) :
    xteaDecRounds key (n + 1) sum v = xteaDecRound key (sum - n • xteaDelta) (xteaDecRounds key n sum v) := by
  induction n generalizing sum v with
  | zero => rw [zero_nsmul, sub_zero]; rfl
  | succ n ih => rw [xteaDecRounds_succ, ih, sub_sub, ← succ_nsmul', xteaDecRounds_succ key n sum v]

/-- A round of decryption subtracts what the round of encryption before it has added, the later half first. -/
theorem xteaDecRound_xteaEncRound (key : List Word) (sum : Word) (v : Word × Word) :
    xteaDecRound key (sum + xteaDelta) (xteaEncRound key sum v) = v := by
  simp only [xteaDecRound, xteaEncRound, xteaDecRounds, xteaEncRounds, add_sub_cancel_right]

theorem xteaEncRound_xteaDecRound (key : List Word) (sum : Word) (v : Word × Word) :
    xteaEncRound key sum (xteaDecRound key (sum + xteaDelta) v) = v := by
  simp only [xteaDecRound, xteaEncRound, xteaDecRounds, xteaEncRounds, add_sub_cancel_right, sub_add_cancel]

/-- The sum that one round more starts decryption from. -/
theorem sum_add_succ_delta (n : Nat) (sum : Word) :
    sum + (n + 1) • xteaDelta = sum + xteaDelta + n • xteaDelta := by rw [succ_nsmul', add_assoc]

/-- The outermost pair of rounds, the first of encryption and the last of decryption, cancels around the others. -/
theorem xteaDecRounds_xteaEncRounds (key : List Word) (n : Nat) (sum : Word) (v : Word × Word) :
    xteaDecRounds key n (sum + n • xteaDelta) (xteaEncRounds key n sum v) = v := by
  induction n generalizing sum v with
  | zero => rfl
  | succ n ih =>
    rw [sum_add_succ_delta, xteaEncRounds_succ, xteaDecRounds_succ_last, ih, add_sub_cancel_right,
      xteaDecRound_xteaEncRound]

/-- The innermost pair of rounds, the last of decryption and the first of encryption, cancels between the others. -/
theorem xteaEncRounds_xteaDecRounds (key : List Word) (n : Nat) (sum : Word) (v : Word × Word) :
    xteaEncRounds key n sum (xteaDecRounds key n (sum + n • xteaDelta) v) = v := by
  induction n generalizing sum v with
  | zero => rfl
  | succ n ih =>
    rw [sum_add_succ_delta, xteaDecRounds_succ_last, add_sub_cancel_right, xteaEncRounds_succ,
      xteaEncRound_xteaDecRound, ih]

/-- Decryption starts from the sum that 32 rounds of encryption end with (43_xtea.md R232). -/
theorem xteaDecSum_eq : xteaDecSum = 0 + 32 • xteaDelta := by decide

theorem decBlock_encBlock (key : List Word) (v : Word × Word) : decBlock key (encBlock key v) = v := by
  rw [decBlock, xteaDecSum_eq, encBlock, xteaDecRounds_xteaEncRounds]

theorem encBlock_decBlock (key : List Word) (v : Word × Word) : encBlock key (decBlock key v) = v := by
  rw [decBlock, xteaDecSum_eq, encBlock, xteaEncRounds_xteaDecRounds]

/-- Settles O30: each round of one function undoes a round of the other. -/
theorem blockFunctionsInverse : Obligations.BlockFunctionsInverse := fun key v =>
  ⟨decBlock_encBlock key v, encBlock_decBlock key v⟩

/-! ### Block by block (43_xtea.md R230, R233) -/

theorem blockHalves_halvesBytes (v : Word × Word) : blockHalves (halvesBytes v) = v := by
  have hdrop : (halvesBytes v).drop 4 = le32bytes v.2 := List.drop_left' (le32bytes_length v.1)
  rw [blockHalves, hdrop, le32_le32bytes, halvesBytes, le32_le32bytes_append]

theorem halvesBytes_blockHalves {b : List Byte} (h : b.length = 8) : halvesBytes (blockHalves b) = b := by
  have hlow : le32bytes (le32 b) = b.take 4 := by
    rw [← le32bytes_le32 (b.take 4) (by simp [h]), le32, le32, List.take_take, min_self]
  have hhigh : le32bytes (le32 (b.drop 4)) = b.drop 4 := le32bytes_le32 _ (by simp [h])
  rw [blockHalves, halvesBytes, hlow, hhigh, List.take_append_drop]

/-- A sequence made of pieces of `k` bytes is cut into these pieces. -/
theorem chunks_flatten_of_all {k : Nat} (hk : 0 < k) {l : List (List Byte)} (h : ∀ p ∈ l, p.length = k) :
    chunks k l.flatten = l := by
  rw [chunks, flatten_length_of_all k l h, Nat.mul_div_cancel _ hk, pieces_of_flatten k l h]

/-- The blocks of an encrypted sequence are the encrypted blocks. -/
theorem chunks_ecbEnc (key : List Word) (d : List Byte) :
    chunks 8 (ecbEnc key d) = (chunks 8 d).map fun b => halvesBytes (encBlock key (blockHalves b)) := by
  rw [ecbEnc, List.flatMap_def, chunks_flatten_of_all (by decide)]
  simp

/-- Decryption meets the very blocks that encryption has put out, and each gives its plaintext block back. -/
theorem ecbDec_ecbEnc (key : List Word) {d : List Byte} (h : d.length % 8 = 0) : ecbDec key (ecbEnc key d) = d := by
  have hblock : ∀ b ∈ chunks 8 d,
      halvesBytes (decBlock key (blockHalves (halvesBytes (encBlock key (blockHalves b))))) = b := fun b hb => by
    rw [blockHalves_halvesBytes, decBlock_encBlock, halvesBytes_blockHalves (chunks_all_length 8 d b hb)]
  rw [ecbDec, chunks_ecbEnc, List.flatMap_map, List.flatMap_congr hblock, List.flatMap_id', chunks_flatten 8 d h]

/-- A sequence of whole blocks keeps its length under encryption. -/
theorem ecbEnc_length_of_blocks (key : List Word) {d : List Byte} (h : d.length % 8 = 0) :
    (ecbEnc key d).length = d.length := by
  rw [ecbEnc_length, Nat.mul_div_cancel' (Nat.dvd_of_mod_eq_zero h)]

/-! ### The framing (43_xtea.md R234, R235) -/

theorem framePrefix_frame {x : List Byte} (h : x.length < 2 ^ 32) : framePrefix (frame x) = x.length := by
  have hcount : (BitVec.ofNat 32 x.length).toNat = x.length := by rw [BitVec.toNat_ofNat, Nat.mod_eq_of_lt h]
  have hframe : frame x =
      le32bytes (BitVec.ofNat 32 x.length) ++ (x ++ zeros ((8 - (x.length + 4) % 8) % 8)) := by
    rw [le32bytes, hcount, frame, List.append_assoc]
  rw [framePrefix, hframe, le32_le32bytes_append, hcount]

theorem unframe_eq_none {f : List Byte} (h : f.length - 4 < framePrefix f) : unframe f = none := by
  rw [unframe, if_pos h]

theorem unframe_eq_some {f : List Byte} (h : framePrefix f ≤ f.length - 4) :
    unframe f = some ((f.drop 4).take (framePrefix f)) := by rw [unframe, if_neg (not_lt.mpr h)]

/-- After its length in four bytes the plaintext stands in front of the padding. -/
theorem unframe_frame {x : List Byte} (h : x.length < 2 ^ 32) : unframe (frame x) = some x := by
  obtain ⟨hlen, -, -⟩ := framedLen_bounds x.length
  have hfits : framePrefix (frame x) ≤ (frame x).length - 4 := by
    rw [framePrefix_frame h, frame_length_eq]
    omega
  rw [unframe_eq_some hfits, framePrefix_frame h, frame, List.append_assoc,
    List.drop_left' (leBytes_length 4 x.length), List.take_left]

/-- Settles O35: four bytes hold every length below 2^32, and that length cuts the padding off. -/
theorem unframeOfFrame : Obligations.UnframeOfFrame := fun x h =>
  ⟨frame_length_eq x, framePrefix_frame h, unframe_frame h⟩

end Sys2Proof
end

section
/-! The XTEA commands: one equation per outcome of a command's result, and the statements they settle. -/

namespace Sys2Proof.Machine

/-! ### The results of the commands (43_xtea.md R236, R238, R240, R242) -/

section
variable {s : State} {slot : SlotIx} {bytes : List Byte}

theorem runXteaEnc_eq_output (hk : (s.slot slot).kind = .xtea) (hsrc : s.latch.source.valid s.params)
    (hdst : (s.latch.dest (framedLen s.latch.srcLen.toNat)).valid s.params)
    (hread : s.ram.readBytes s.latch.source.addr s.latch.source.len = some bytes) :
    runXteaEnc slot s =
      s.latch.output (ecbEnc (subkeys (s.slot slot).key) (frame bytes)) (framedLen s.latch.srcLen.toNat) := by
  rw [runXteaEnc, if_neg (not_not.mpr hk), if_neg (not_not.mpr hsrc), if_neg (not_not.mpr hdst),
    withBytes_of_read _ hread]

theorem runXteaEcb_eq_output (f : List Word → List Byte → List Byte) (hk : (s.slot slot).kind = .xtea)
    (hsrc : s.latch.source.valid s.params) (hlen : s.latch.srcLen.toNat % 8 = 0)
    (hdst : (s.latch.dest s.latch.srcLen.toNat).valid s.params)
    (hread : s.ram.readBytes s.latch.source.addr s.latch.source.len = some bytes) :
    runXteaEcb f slot s = s.latch.output (f (subkeys (s.slot slot).key) bytes) s.latch.srcLen.toNat := by
  rw [runXteaEcb, if_neg (not_not.mpr hk), if_neg (not_not.mpr hsrc), if_neg (not_not.mpr hlen),
    if_neg (not_not.mpr hdst), withBytes_of_read _ hread]

theorem runXteaEcb_eq_malformed (f : List Word → List Byte → List Byte) (hk : (s.slot slot).kind = .xtea)
    (hsrc : s.latch.source.valid s.params) (hlen : s.latch.srcLen.toNat % 8 ≠ 0) :
    runXteaEcb f slot s = .error .malformedCiphertext := by
  rw [runXteaEcb, if_neg (not_not.mpr hk), if_neg (not_not.mpr hsrc), if_pos hlen]

theorem runXteaDec_eq_malformed (hk : (s.slot slot).kind = .xtea) (hsrc : s.latch.source.valid s.params)
    (hlen : s.latch.srcLen.toNat % 8 ≠ 0 ∨ s.latch.srcLen.toNat < 8) :
    runXteaDec slot s = .error .malformedCiphertext := by
  rw [runXteaDec, if_neg (not_not.mpr hk), if_neg (not_not.mpr hsrc), if_pos hlen]

theorem runXteaDec_eq_finishDec (hk : (s.slot slot).kind = .xtea) (hsrc : s.latch.source.valid s.params)
    (hmod : s.latch.srcLen.toNat % 8 = 0) (hmin : 8 ≤ s.latch.srcLen.toNat)
    (hread : s.ram.readBytes s.latch.source.addr s.latch.source.len = some bytes) :
    runXteaDec slot s = finishDec s (ecbDec (subkeys (s.slot slot).key) bytes) := by
  have hblocks : ¬ (s.latch.srcLen.toNat % 8 ≠ 0 ∨ s.latch.srcLen.toNat < 8) := by omega
  rw [runXteaDec, if_neg (not_not.mpr hk), if_neg (not_not.mpr hsrc), if_neg hblocks, withBytes_of_read _ hread]

variable {f x : List Byte}

theorem finishDec_eq_malformed (h : unframe f = none) : finishDec s f = .error .malformedCiphertext := by
  simp only [finishDec, h]

theorem finishDec_eq_range (h : unframe f = some x) (hdst : ¬ (s.latch.dest (framePrefix f)).valid s.params) :
    finishDec s f = .error .range := by simp only [finishDec, h, if_pos hdst]

theorem finishDec_eq_output (h : unframe f = some x) (hdst : (s.latch.dest (framePrefix f)).valid s.params) :
    finishDec s f = s.latch.output x (framePrefix f) := by simp only [finishDec, h, if_neg (not_not.mpr hdst)]

/-- The bytes of an output stand at its destination, and `RESULT_LEN` counts them (10_state.md R42). -/
theorem exec_output_stored {i : Instr} {n : Word} (h : resultOf i s = s.latch.output bytes n.toNat)
    (hlen : bytes.length = n.toNat) :
    ∃ t, exec i s = .next t ∧ t.resultLen = n ∧ t.errcode = 0 ∧
      t.ram.readBytes s.latch.dstAddr.toNat n.toNat = some bytes :=
  ⟨_, exec_of_output h, rfl, rfl, hlen ▸ s.ram.readBytes_writeBytes s.latch.dstAddr.toNat bytes⟩

end

/-! ### The statements of XTEA -/

/-- Settles O15: on valid ranges the result is an output of the framed length. -/
theorem xteaEncResult : Obligations.XteaEncResult := fun _ slot _ hk hsrc hdst hread =>
  exec_of_ok (i := .xteaEnc slot) (runXteaEnc_eq_output hk hsrc hdst hread)

/-- Settles O17: on whole blocks and valid ranges the result is an output of `SRC_LEN` bytes. -/
theorem xteaEcbResult : Obligations.XteaEcbResult := fun _ slot _ hk hsrc hlen hdst hread =>
  ⟨exec_of_output (i := .xteaEcbEnc slot) (runXteaEcb_eq_output ecbEnc hk hsrc hlen hdst hread),
    exec_of_output (i := .xteaEcbDec slot) (runXteaEcb_eq_output ecbDec hk hsrc hlen hdst hread)⟩

/-- Settles O23: the length is looked at before the destination range and before any byte is read. -/
theorem brokenBlocksAreMalformed : Obligations.BrokenBlocksAreMalformed := by
  intro s slot i hk hsrc h
  suffices hr : resultOf i s = .error .malformedCiphertext from exec_of_error hr
  rcases h with ⟨rfl | rfl | rfl, hmod⟩ | ⟨rfl, hzero⟩
  · exact runXteaDec_eq_malformed hk hsrc (.inl hmod)
  · exact runXteaEcb_eq_malformed ecbEnc hk hsrc hmod
  · exact runXteaEcb_eq_malformed ecbDec hk hsrc hmod
  · exact runXteaDec_eq_malformed hk hsrc (.inr (by omega))

/-- Settles O16: the decrypted buffer has `SRC_LEN` bytes, so its leading length is compared with `SRC_LEN - 4`, and
only then with the room at the destination. -/
theorem xteaDecResult : Obligations.XteaDecResult := by
  intro s slot c hk hsrc hmod hmin hread
  have hfinish := runXteaDec_eq_finishDec hk hsrc hmod hmin hread
  have hlen : (ecbDec (subkeys (s.slot slot).key) c).length = s.latch.srcLen.toNat := by
    rw [ecbDec_length, s.ram.readBytes_length _ _ c hread, Nat.mul_div_cancel' (Nat.dvd_of_mod_eq_zero hmod)]
  generalize ecbDec (subkeys (s.slot slot).key) c = f at hfinish hlen ⊢
  split_ifs with hprefix hroom
  · have hnone : unframe f = none := unframe_eq_none (hlen ▸ hprefix)
    exact exec_of_error (i := .xteaDec slot) (hfinish.trans (finishDec_eq_malformed hnone))
  · have hsome := unframe_eq_some (f := f) (hlen ▸ not_lt.mp hprefix)
    exact exec_of_error (i := .xteaDec slot) (hfinish.trans (finishDec_eq_range hsome (not_le.mpr hroom)))
  · have hsome := unframe_eq_some (f := f) (hlen ▸ not_lt.mp hprefix)
    exact exec_of_output (i := .xteaDec slot) (hfinish.trans (finishDec_eq_output hsome (not_lt.mp hroom)))

/-- Settles O37: the second command decrypts the first one's blocks to the frame, which begins with the plaintext's
length. -/
theorem xteaFramedRoundTrip : Obligations.XteaFramedRoundTrip := by
  intro s slot x hp hk hsrc hdst hread
  have hx : x.length = s.latch.srcLen.toNat := s.ram.readBytes_length _ _ x hread
  have hcountable : x.length < 2 ^ 32 := hx ▸ s.latch.srcLen.isLt
  have hframe : (frame x).length = framedLen s.latch.srcLen.toNat := hx ▸ frame_length_eq x
  have hblocks : (frame x).length % 8 = 0 := hframe ▸ framedLen_mod _
  have hcount : (BitVec.ofNat 32 (framedLen s.latch.srcLen.toNat)).toNat = framedLen s.latch.srcLen.toNat := by
    obtain ⟨-, hbuf⟩ := bufBytes_bounds s.params hp
    rw [BitVec.toNat_ofNat, Nat.mod_eq_of_lt (by omega)]
  obtain ⟨t, ht, hresult, -, hstored⟩ := exec_output_stored (i := .xteaEnc slot)
    (hcount.symm ▸ runXteaEnc_eq_output hk hsrc hdst hread)
    ((ecbEnc_length_of_blocks _ hblocks).trans (hframe.trans hcount.symm))
  refine ⟨t, ht, fun u hparams hslot haddr hlen hdst' hsame => ?_⟩
  obtain ⟨-, -, hmin⟩ := framedLen_bounds s.latch.srcLen.toNat
  have hlen' : u.latch.srcLen.toNat = framedLen s.latch.srcLen.toNat := by rw [hlen, hresult, hcount]
  have hsrc' : u.latch.source.valid u.params := by
    rwa [Range.valid, Latch.source, hparams, haddr, hlen']
  have hread' : u.ram.readBytes u.latch.source.addr u.latch.source.len =
      some (ecbEnc (subkeys (s.slot slot).key) (frame x)) := by
    rw [Latch.source, haddr, hlen, hsame, hresult, hstored]
  have hfinish := runXteaDec_eq_finishDec (hslot ▸ hk) hsrc' (hlen' ▸ framedLen_mod _) (hlen' ▸ hmin) hread'
  have hprefix : framePrefix (frame x) = s.latch.srcLen.toNat := (framePrefix_frame hcountable).trans hx
  have hfits : (u.latch.dest (framePrefix (frame x))).valid u.params := hprefix ▸ hdst'
  rw [hslot, ecbDec_ecbEnc _ hblocks, finishDec_eq_output (unframe_frame hcountable) hfits, hprefix] at hfinish
  obtain ⟨v, hv, hcount', herr, hback⟩ := exec_output_stored (i := .xteaDec slot) hfinish hx
  exact ⟨v, hv, hback, hcount', herr⟩

/-- Settles O38: both commands cut the same `SRC_LEN` bytes into blocks, and each block comes back. -/
theorem xteaUnframedRoundTrip : Obligations.XteaUnframedRoundTrip := by
  intro s slot x hk hsrc hmod hdst hread
  have hx : x.length = s.latch.srcLen.toNat := s.ram.readBytes_length _ _ x hread
  have hblocks : x.length % 8 = 0 := hx ▸ hmod
  obtain ⟨t, ht, -, -, hstored⟩ := exec_output_stored (i := .xteaEcbEnc slot)
    (runXteaEcb_eq_output ecbEnc hk hsrc hmod hdst hread) ((ecbEnc_length_of_blocks _ hblocks).trans hx)
  refine ⟨t, ht, fun u hparams hslot haddr hlen hdst' hsame => ?_⟩
  have hsrc' : u.latch.source.valid u.params := by
    rwa [Range.valid, Latch.source, hparams, haddr, hlen]
  have hread' : u.ram.readBytes u.latch.source.addr u.latch.source.len =
      some (ecbEnc (subkeys (s.slot slot).key) x) := by rw [Latch.source, haddr, hlen, hsame, hstored]
  have hresult := runXteaEcb_eq_output ecbDec (hslot ▸ hk) hsrc' (hlen ▸ hmod) hdst' hread'
  rw [hslot, ecbDec_ecbEnc _ hblocks] at hresult
  obtain ⟨v, hv, hcount, -, hback⟩ := exec_output_stored (i := .xteaEcbDec slot) hresult (hlen ▸ hx)
  exact ⟨v, hv, hback, hcount.trans hlen⟩

end Sys2Proof.Machine
end

section
/-! TOTP: the bytes of a truncated digest, the windows of time, the results of the commands, and the statements they
settle. -/

namespace Sys2Proof

/-! ### Big-endian words and the truncation (00_scope.md R12, 44_totp.md R263, R264) -/

theorem take_four_drop {o : Nat} {h : List Byte} (ho : o + 4 ≤ h.length) :
    (h.drop o).take 4 = [h.getD o 0, h.getD (o + 1) 0, h.getD (o + 2) 0, h.getD (o + 3) 0] := by
  have hlen : ((h.drop o).take 4).length = 4 := by
    rw [List.length_take, List.length_drop]
    omega
  refine List.ext_getElem hlen fun k hk _ => ?_
  have hk4 : k < 4 := hlen ▸ hk
  rw [List.getElem_take, List.getElem_drop, ← List.getD_eq_getElem _ 0]
  interval_cases k <;> rfl

theorem be32_drop {o : Nat} {h : List Byte} (ho : o + 4 ≤ h.length) :
    be32 (h.drop o) = be32 [h.getD o 0, h.getD (o + 1) 0, h.getD (o + 2) 0, h.getD (o + 3) 0] := by
  rw [be32, take_four_drop ho]
  rfl

theorem shifted_byte_toNat (b : Byte) {k : Nat} (hk : k ≤ 24) :
    (BitVec.ofNat 32 b.toNat <<< k).toNat = b.toNat <<< k := by
  have hfits : b.toNat * 2 ^ k < 2 ^ 8 * 2 ^ 24 :=
    Nat.mul_lt_mul_of_lt_of_le b.isLt (Nat.pow_le_pow_right (by decide) hk) (by decide)
  have hword : b.toNat % 2 ^ 32 = b.toNat := Nat.mod_eq_of_lt (b.isLt.trans (by decide))
  rw [BitVec.toNat_shiftLeft, BitVec.toNat_ofNat, hword, Nat.shiftLeft_eq, Nat.mod_eq_of_lt (b := 2 ^ 32) hfits]

section
variable (b0 b1 b2 b3 : Byte)

theorem be32_toNat : (be32 [b0, b1, b2, b3]).toNat =
    b0.toNat * 2 ^ 24 + b1.toNat * 2 ^ 16 + b2.toNat * 2 ^ 8 + b3.toNat := by
  have hb0 := b0.isLt
  have hb1 := b1.isLt
  have hb2 := b2.isLt
  have hb3 := b3.isLt
  simp only [be32, List.take, List.reverse_cons, List.reverse_nil, List.nil_append, List.cons_append, leValue,
    BitVec.toNat_ofNat]
  omega

/-- Bytes at different places of a word do not overlap, so joining them with `or` is adding them. -/
theorem shifted_bytes_eq_be32 :
    (BitVec.ofNat 32 b0.toNat <<< 24) ||| (BitVec.ofNat 32 b1.toNat <<< 16) ||| (BitVec.ofNat 32 b2.toNat <<< 8) |||
      BitVec.ofNat 32 b3.toNat = be32 [b0, b1, b2, b3] := by
  have hb1 := b1.isLt
  have hb2 := b2.isLt
  have hb3 := b3.isLt
  have hlast : (BitVec.ofNat 32 b3.toNat).toNat = b3.toNat := Nat.mod_eq_of_lt (by omega)
  have hlow2 : b2.toNat <<< 8 + b3.toNat < 2 ^ 16 := by omega
  have hlow3 : b1.toNat <<< 16 + (b2.toNat <<< 8 + b3.toNat) < 2 ^ 24 := by omega
  refine BitVec.eq_of_toNat_eq ?_
  rw [be32_toNat, BitVec.toNat_or, BitVec.toNat_or, BitVec.toNat_or, shifted_byte_toNat b0 le_rfl,
    shifted_byte_toNat b1 (by decide), shifted_byte_toNat b2 (by decide), hlast, Nat.or_assoc, Nat.or_assoc,
    ← Nat.shiftLeft_add_eq_or_of_lt hb3, ← Nat.shiftLeft_add_eq_or_of_lt hlow2,
    ← Nat.shiftLeft_add_eq_or_of_lt hlow3]
  omega

/-- Bit 31 of a big-endian word is bit 7 of its first byte. -/
theorem be32_mask_first : be32 [b0 &&& 0x7F, b1, b2, b3] = be32 [b0, b1, b2, b3] &&& 0x7FFFFFFF := by
  have hbyte : (b0 &&& 0x7F).toNat = b0.toNat % 2 ^ 7 := Nat.and_two_pow_sub_one_eq_mod _ 7
  have hword (w : Word) : (w &&& 0x7FFFFFFF).toNat = w.toNat % 2 ^ 31 := Nat.and_two_pow_sub_one_eq_mod _ 31
  have hb1 := b1.isLt
  have hb2 := b2.isLt
  have hb3 := b3.isLt
  refine BitVec.eq_of_toNat_eq ?_
  rw [hword, be32_toNat, be32_toNat, hbyte]
  omega

end

/-- The offset is below 16, so the four bytes lie within the digest; a byte is below the modulus of the last one. -/
theorem truncateDigest_eq_masked {h : List Byte} (hlen : h.length = 32) :
    truncateDigest h = be32 (h.drop (h.getD 31 0 &&& 0x0F).toNat) &&& 0x7FFFFFFF := by
  have ho : (h.getD 31 0 &&& 0x0F).toNat ≤ 15 := Nat.and_le_right
  have hlast (b : Byte) : b.toNat % 1000000 = b.toNat := Nat.mod_eq_of_lt (b.isLt.trans (by decide))
  rw [be32_drop (by omega), ← be32_mask_first, ← shifted_bytes_eq_be32, truncateDigest, hlast]

/-- Settles O33: masking the first byte clears bit 31 of the word. -/
theorem truncateIsMaskedWord : Obligations.TruncateIsMaskedWord := fun h hlen =>
  ⟨truncateDigest_eq_masked hlen, Nat.le_of_lt_succ (truncateDigest_lt h)⟩

/-! ### Windows of time (44_totp.md R260, R270) -/

theorem windowStart_congr {t t' : Nat} (h : t / 60 = t' / 60) : windowStart t = windowStart t' := by
  simp only [windowStart]
  omega

end Sys2Proof

namespace Sys2Proof.Machine

/-! ### The results of the commands (44_totp.md R266, R268) -/

section
variable {s : State} {allowLast : Bool}

theorem exec_of_totpWrite {i : Instr} {r : TotpRegs} (h : resultOf i s = .ok { totp := some r } 0) :
    exec i s = .next { s with
      totp := r
      resultLen := 0
      errcode := 0
      status := s.status.completed } := exec_of_ok h

theorem runTotpGen_eq_ok {seed : List Byte} (hsrc : s.latch.source.valid s.params) (htime : 60 ≤ s.latch.time.toNat)
    (hread : s.ram.readBytes s.latch.source.addr s.latch.source.len = some seed) :
    runTotpGen s = .ok { totp := some (totpObject s.params.ts seed s.latch.time.toNat) } 0 := by
  rw [runTotpGen, if_neg (not_not.mpr hsrc), if_neg (not_lt.mpr htime), withBytes_of_read _ hread]

theorem runTotpValidate_eq_noOtp (h : s.totp.present ≠ true) : runTotpValidate allowLast s = .error .noOtp := by
  rw [runTotpValidate, if_pos (Bool.eq_false_of_not_eq_true h)]

theorem runTotpValidate_eq_ok (h : s.totp.present = true) : runTotpValidate allowLast s =
    .ok { totp := some { s.totp with matched := totpMatches s.totp allowLast s.latch.totpCand } } 0 := by
  rw [runTotpValidate, if_neg (Bool.not_eq_false _ ▸ h)]

end

/-- `m` of `TOTP_VALIDATE` as a proposition (44_totp.md R268). -/
theorem totpMatches_eq_decide (r : TotpRegs) (allowLast : Bool) (candidate : Word) :
    totpMatches r allowLast candidate = decide (candidate = r.code ∨ (allowLast = true ∧ candidate = r.last)) := by
  simp only [totpMatches, Bool.beq_eq_decide_eq, Bool.decide_or, Bool.decide_and, Bool.decide_eq_true]

/-! ### The statements of TOTP -/

/-- Settles O18: on a valid source range and at a time of at least 60 the result is a write of the OTP object. -/
theorem totpGenResult : Obligations.TotpGenResult := fun _ _ hsrc htime hread =>
  exec_of_totpWrite (i := .totpGen) (runTotpGen_eq_ok hsrc htime hread)

/-- Settles O19: the result is a write of `MATCH` or `NO_OTP`, as `PRESENT` says. -/
theorem totpValidateResult : Obligations.TotpValidateResult := by
  intro s allowLast
  split_ifs with hpresent
  · rw [← totpMatches_eq_decide]
    exact exec_of_totpWrite (i := .totpValidate allowLast) (runTotpValidate_eq_ok hpresent)
  · exact exec_of_error (i := .totpValidate allowLast) (runTotpValidate_eq_noOtp hpresent)

/-- Settles O34: both codes depend on the time only through the start of its window. -/
theorem sameWindowSameCodes : Obligations.SameWindowSameCodes := by
  intro s s' seed hts hsrc hsrc' hread hread' htime hwindow
  have htime' : 60 ≤ s'.latch.time.toNat := by omega
  have hgen := runTotpGen_eq_ok hsrc htime hread
  have hgen' := runTotpGen_eq_ok hsrc' htime' hread'
  refine ⟨_, _, exec_of_totpWrite (i := .totpGen) hgen, exec_of_totpWrite (i := .totpGen) hgen', rfl, rfl, ?_, ?_⟩
  all_goals simp only [totpObject, hts, windowStart_congr hwindow]

end Sys2Proof.Machine
end

section
/-! Control: `NOP` completes a result that writes nothing. -/

namespace Sys2Proof.Machine

/-- Settles O8: the result of `NOP` is no write and no output, so the state that completes is the one it began with. -/
theorem nopResult : Obligations.NopResult := by
  intro s
  have hres : resultOf .nop s = .ok {} 0 := rfl
  rw [exec_of_ok hres, State.applyWrites_nothing]
  rfl

end Sys2Proof.Machine
end

section
/-! Errors, the interrupt output and the loss of power: the bits that `IRQ` is made of, and the registers after a reset. -/

namespace Sys2Proof.Machine

/-! ### The bits of `STATUS` and `CTRL` (10_state.md R38, R39) -/

theorem Status.word_getLsbD_done (f : Status) : f.word.getLsbD 1 = f.done := by
  obtain ⟨busy, done, err, overrun⟩ := f
  revert busy done err overrun
  decide

theorem Status.word_getLsbD_err (f : Status) : f.word.getLsbD 2 = f.err := by
  obtain ⟨busy, done, err, overrun⟩ := f
  revert busy done err overrun
  decide

theorem Ctrl.word_getLsbD_doneIe (c : Ctrl) : c.word.getLsbD 1 = c.doneIe := by
  obtain ⟨doneIe, errIe⟩ := c
  revert doneIe errIe
  decide

theorem Ctrl.word_getLsbD_errIe (c : Ctrl) : c.word.getLsbD 2 = c.errIe := by
  obtain ⟨doneIe, errIe⟩ := c
  revert doneIe errIe
  decide

/-! ### The block after a reset (70_reset_and_hazards.md R340) -/

theorem keystatValue_replicate_cleared (n : Nat) : keystatValue (List.replicate n KeySlot.cleared) = 0 := by
  induction n with
  | zero => rfl
  | succ n ih =>
    rw [List.replicate_succ, keystatValue, ih]
    rfl

/-- Every register but the two that name the block reads 0 after a reset, whatever stands in the data RAM. -/
theorem State.resetWith_readRegister (p : Params) (m : Memory) (l : List Event) (w : Option Word) (r : Register) :
    (State.resetWith p m l w).readRegister r = if r = .id then 0x41534301 else if r = .config then configWord p else 0 := by
  cases r with
  | keystat => exact congrArg (BitVec.ofNat 32) (keystatValue_replicate_cleared p.numSlots)
  | _ => rfl

/-- No interrupt is pending after a reset: neither `DONE` nor `ERR` is set. -/
theorem State.resetWith_irq (p : Params) (m : Memory) (l : List Event) (w : Option Word) :
    (State.resetWith p m l w).irq = false := rfl

/-- A step at a loss of power is the power cycle (60_exceptions.md R317). -/
theorem step_powerOn (s : State) (rest : List Event) (h : s.inputs = .powerOn :: rest) :
    step s = .next (State.powerCycle { s with inputs := rest }) := by simp only [step, nextEvent, h, happen]

/-! ### The statements of errors and interrupts -/

/-- Settles O25: a completion without error leaves `ERRCODE` 0, so the completion is the taking of an error. -/
theorem errorCompletionIsPrecise : Obligations.ErrorCompletionIsPrecise := by
  intro s t _ h hcode
  rcases perform_next s t h with ⟨i, w, n, -, -, rfl⟩ | ⟨e, rfl⟩
  · exact absurd (State.finishOk_errcode _ n) hcode
  · rfl

/-- Settles O47: each bit that software reads is the stored bit. -/
theorem interruptOutput : Obligations.InterruptOutput := by
  refine ⟨fun s => ?_, State.resetWith_irq⟩
  simp only [State.irq, State.readRegister, Status.word_getLsbD_done, Status.word_getLsbD_err,
    Ctrl.word_getLsbD_doneIe, Ctrl.word_getLsbD_errIe]

/-- Settles O57: the step is a reset over a data RAM in which nothing is written. -/
theorem powerCycleForgetsTheRam : Obligations.PowerCycleForgetsTheRam := fun s rest h =>
  ⟨_, step_powerOn s rest h, rfl, rfl, Memory.read_nil, rfl, State.resetWith_readRegister s.params [] rest s.reply⟩

end Sys2Proof.Machine
end

section
/-! Resets, and the hazards of a busy block: the steps at a reset, the data RAM they leave, the accesses that are forbidden. -/

namespace Sys2Proof.Machine

/-! ### The nominal destination (70_reset_and_hazards.md R352) -/

theorem State.nominalDest_of_ok {s : State} {i : Instr} (h : decode s.params.numSlots s.latch.cmd = .ok i) :
    s.nominalDest = s.latch.dest (nominalLen s.latch i) := by simp only [State.nominalDest, h]

theorem State.nominalDest_of_error {s : State} {e : Illegal} (h : decode s.params.numSlots s.latch.cmd = .error e) :
    s.nominalDest = s.latch.dest 0 := by simp only [State.nominalDest, h]

/-- A reset makes the nominal destination of a pending command unwritten, and no other byte (70_reset_and_hazards.md R341,
R344). -/
theorem State.ramAfterReset_read (s : State) (x : Nat) : s.ramAfterReset.read x =
    if s.status.busy = true ∧ s.nominalDest.addr ≤ x ∧ x < s.nominalDest.addr + s.nominalDest.len then none
    else s.ram.read x := by
  rw [State.ramAfterReset, ite_and]
  split
  · exact Memory.read_forget _ _ _ _
  · rfl

/-! ### The steps at a reset (70_reset_and_hazards.md R342, R343) -/

theorem step_reset {s : State} {rest : List Event} (h : s.inputs = .reset :: rest) :
    step s = .next (State.hardReset { s with inputs := rest }) := by simp only [step, nextEvent, h, happen]

/-- A write to `CTRL` with `SRST` set is a reset, whatever its other bits are. -/
theorem hostAccess_softReset (s : State) {v : Word} (hv : v.getLsbD 0 = true) :
    hostAccess s (.write (s.params.windowBase + 0x008) .word v) = .next s.hardReset :=
  calc hostAccess s (.write (s.params.windowBase + 0x008) .word v)
    _ = .next (s.writeCtrl v) := hostAccess_writeOffset s Register.ctrl.offset v (by decide) rfl
    _ = .next s.hardReset := by rw [State.writeCtrl, if_pos hv]

/-! ### The hazards of a busy block (70_reset_and_hazards.md R351 to R354) -/

/-- A naturally aligned access that begins in the data RAM also ends there (20_memory.md R84, R86). -/
theorem Width.aligned_le_bufBytes {p : Params} {a : Nat} {width : Width} (hp : p.legal) (ha : a < p.bufBytes)
    (halign : a % width.bytes = 0) : a + width.bytes ≤ p.bufBytes :=
  hostTarget_ram p _ width a hp (hostTarget_ramAddress p a width hp ha halign)

theorem State.readHazard_iff_of_busy {s : State} {a n : Nat} (hb : s.status.busy = true) (h : a + n ≤ s.params.bufBytes) :
    s.readHazard a n ↔
      ∃ k, k < n ∧ s.nominalDest.addr ≤ a + k ∧ a + k < s.nominalDest.addr + s.nominalDest.len := by
  rw [State.readHazard, and_iff_right hb, Range.touches_iff _ _ _ _ h]

theorem State.writeHazard_iff_of_busy {s : State} {a n : Nat} (hb : s.status.busy = true) (h : a + n ≤ s.params.bufBytes) :
    s.writeHazard a n ↔
      (∃ k, k < n ∧ s.latch.source.addr ≤ a + k ∧ a + k < s.latch.source.addr + s.latch.source.len) ∨
      ∃ k, k < n ∧ s.nominalDest.addr ≤ a + k ∧ a + k < s.nominalDest.addr + s.nominalDest.len := by
  rw [State.writeHazard, and_iff_right hb, Range.touches_iff _ _ _ _ h, Range.touches_iff _ _ _ _ h]

theorem hostRamRead_of_hazard {s : State} {a n : Nat} (hz : s.readHazard a n) :
    hostRamRead s a n = .fault .hostHazard := if_pos hz

theorem hostRamWrite_of_hazard {s : State} {a n : Nat} (v : Word) (hz : s.writeHazard a n) :
    hostRamWrite s a n v = .fault .hostHazard := if_pos hz

/-! ### The statements of resets and hazards -/

/-- Settles O54: the slots and the data RAM are those that a reset is made of. -/
theorem resetValues : Obligations.ResetValues := fun p m l r =>
  ⟨State.resetWith_readRegister p m l r, rfl, rfl⟩

/-- Settles O55: both steps are the reset of the same state. -/
theorem softResetIsHardwareReset : Obligations.SoftResetIsHardwareReset := by
  intro s v rest hv hinputs
  have hsoft : step s = .next (State.hardReset { s with inputs := rest }) :=
    (step_host s _ rest hinputs).trans (hostAccess_softReset { s with inputs := rest } hv)
  exact ⟨_, hsoft, step_reset rfl, rfl, rfl⟩

/-- Settles O58: an empty data RAM is good, and the reference parameters are legal. -/
theorem resetIsGood : Obligations.ResetIsGood := by
  have hgood : ∀ (p : Params) (l : List Event) (r : Option Word), p.legal → (State.resetWith p [] l r).wf :=
    fun p l r hp => State.resetWith_wf p [] l r hp Memory.wf_nil fun _ hc => absurd hc List.not_mem_nil
  exact ⟨hgood Params.reference [] none (by decide), hgood⟩

/-- Settles O56: the step is a reset over the data RAM without the nominal destination, which an illegal word leaves empty. -/
theorem resetAbortsPendingCommand : Obligations.ResetAbortsPendingCommand := by
  intro s rest hinputs
  refine ⟨_, step_reset hinputs, rfl, rfl, State.resetWith_readRegister s.params _ rest s.reply, rfl, rfl,
    fun i hi x => ?_, fun e he x => ?_⟩
  · have hram := s.ramAfterReset_read x
    rw [State.nominalDest_of_ok hi] at hram
    exact hram
  · have hram := s.ramAfterReset_read x
    rw [State.nominalDest_of_error he] at hram
    refine hram.trans (if_neg ?_)
    rintro ⟨-, hlo, hhi⟩
    exact absurd hlo (Nat.not_le.mpr hhi)

/-- Settles O51: an access is a hazard iff one of its bytes is in a protected range, and any other is as on an idle block. -/
theorem ramAccessWhileBusy : Obligations.RamAccessWhileBusy := by
  intro s len a n width v hp hb hlen hn ha halign
  obtain rfl := Width.bytes_eq hn
  have hdest : s.nominalDest = s.latch.dest len := by
    rcases hlen with ⟨i, hi, rfl⟩ | ⟨⟨e, he⟩, rfl⟩
    · exact State.nominalDest_of_ok hi
    · exact State.nominalDest_of_error he
  have hin := Width.aligned_le_bufBytes hp ha halign
  have hreadz := State.readHazard_iff_of_busy hb hin
  have hwritez := State.writeHazard_iff_of_busy hb hin
  rw [hdest] at hreadz hwritez
  rw [hostAccess_readRam s a width hp ha halign, hostAccess_writeRam s a width v hp ha halign]
  refine ⟨fun hd => ⟨hostRamRead_of_hazard (hreadz.mpr hd), hostRamWrite_of_hazard v (hwritez.mpr (.inr hd))⟩,
    fun hs => hostRamWrite_of_hazard v (hwritez.mpr (.inl hs)), fun hd => ?_, fun hd hs => ?_⟩
  · have hz : ¬ s.readHazard a width.bytes := mt hreadz.mp hd
    refine ⟨hostRamRead_of_unwritten hz, fun hv hbytes => ?_⟩
    rw [hostRamRead_of_written hz hbytes, Nat.mod_eq_of_lt hv, BitVec.ofNat_toNat, BitVec.setWidth_eq]
    rfl
  · have hz : ¬ s.writeHazard a width.bytes := fun h => (hwritez.mp h).elim hs hd
    exact ⟨_, (hostRamWrite_eq_next s _ a width.bytes v).mpr ⟨hz, rfl⟩, s.ram.read_writeLe a width.bytes v⟩

end Sys2Proof.Machine
end
